-- ==== Sys2Proof/Word.lean ====
section
/-! DEFINITION. The value types of the frame codec block: bytes, host words and host bus addresses
(spec/00_scope.md rules R1, R2, R3). Every value is unsigned; nothing sign-extends. -/

namespace Sys2Proof

/-- A byte, 0x00 to 0xFF (R3). -/
abbrev Byte := BitVec 8

/-- A host register or host bus word, 32 bits (R1 REG_WIDTH). -/
abbrev Word := BitVec 32

/-- A host bus address, an 11-bit byte offset into the window (R1 HOST_ADDR_BITS, R47). -/
abbrev Addr := BitVec 11

end Sys2Proof
end

