-- ==== Sys2Proof/Config.lean ====
section
/-! DEFINITION. The fixed parameters of the block (spec/00_scope.md rule R1), the places of its buffers in the
host window (spec/10_state.md rule R23), and the free values that stand for what the spec leaves unspecified. -/

namespace Sys2Proof.Config

/-- First sync byte of a frame and of a descriptor (R1 SYNC1). -/
def sync1 : Byte := 0xA5#8
/-- Second sync byte of a descriptor (R1 SYNC2). -/
def sync2 : Byte := 0x5A#8
/-- Longest payload that encodes (R1 MAX_PAYLOAD). -/
def maxPayload : Nat := 255
/-- Longest frame, and the bytes of frame buffer storage (R1 FRAME_MAX, FB_BYTES). -/
def frameMax : Nat := 259
/-- Bytes of payload buffer storage (R1 PL_BYTES). -/
def plBytes : Nat := 256
/-- Bytes of receive buffer storage, and the largest count AWAIT takes (R1 RX_BYTES). -/
def rxBytes : Nat := 1024
/-- Bytes of a response descriptor (R1 DESC_BYTES). -/
def descBytes : Nat := 7

/-- Window offset of PLBUF (R23, R42). -/
def plBase : Nat := 0x100
/-- Window offset of FRAMEBUF (R23, R43). -/
def frameBase : Nat := 0x200
/-- Window offset of RXBUF (R23, R44). -/
def rxBase : Nat := 0x400

/-- FREE VALUE: the k-th drawn byte. It stands for what a buffer byte that nothing has written since reset, or a
result byte read while its command runs, reads as (R89, R54). No body: no proof can see a value (notes/assumptions/1). -/
opaque freeByte : Nat → Byte

/-- FREE VALUE: the k-th drawn word. It stands for a result register read while its command runs (R54) and for a host
read in the reset clock (R250). No body: no proof can see a value (notes/assumptions/2). -/
opaque freeWord : Nat → Word

end Sys2Proof.Config
end

