-- ==== Sys2Proof/Syntax.lean ====
section
/-! DEFINITION. The instructions of the block: one constructor for each row of spec/opcode_table.json, the two kinds
of encoding they have (spec/30_encoding.md), and the reasons a decoder can give for turning a byte string away. -/

namespace Sys2Proof

/-- One constructor per row of the opcode table. The four host commands have no operand in their word (R100); a
device command carries its payload, `none` where no payload is supplied (R110) and `some p` where `p` is supplied, the
empty one included (R111, R135; spec/43_wire_commands.md gives the payload form to any of the seven). -/
inductive Instr where
  /-- ENCODE, host command OP 0 (R130). -/
  | encode
  /-- DECODE_DESC, host command OP 1 (R150). -/
  | decodeDesc
  /-- AWAIT, host command OP 2 (R170). -/
  | await
  /-- RSVD3, the reserved host command OP 3 (R104). -/
  | rsvd3
  /-- GET_INFO, device command 0x50 (R200). -/
  | getInfo (payload : Option (List Byte))
  /-- GET_HEALTH, device command 0x52 (R201). -/
  | getHealth (payload : Option (List Byte))
  /-- STOP, device command 0x25 (R202). -/
  | stop (payload : Option (List Byte))
  /-- RESET, device command 0x40 (R203); unrelated to the block's own `rst`. -/
  | reset (payload : Option (List Byte))
  /-- START_SCAN, device command 0x20 (R204). -/
  | startScan (payload : Option (List Byte))
  /-- FORCE_SCAN, device command 0x21 (R205). -/
  | forceScan (payload : Option (List Byte))
  /-- SET_MOTOR_PWM, device command 0xF0 (R206). -/
  | setMotorPwm (payload : Option (List Byte))
deriving DecidableEq, Repr

/-- The words of an instruction: a host command is one 32-bit write to CMD (R100); a device command is its wire frame,
first byte first (R110, R111, R75). -/
inductive Encoding where
  | cmdWord (w : Word)
  | frame (bytes : List Byte)
deriving DecidableEq, Repr

/-- Why a byte string is no device command frame of the table. -/
inductive DecodeError where
  /-- Fewer than the two bytes of the shortest frame (R110, R116). -/
  | tooShort
  /-- Byte 0 is not the sync byte 0xA5 (R110, R111). -/
  | badSync
  /-- Byte 1 is none of the seven opcodes of R120; the host encodes such an opcode by writing ENC_CTRL (R121). -/
  | unlistedOpcode (op : Byte)
  /-- The length byte and the number of bytes after it disagree (R111). -/
  | badLength
  /-- The last byte is not the XOR of the bytes before it (R111). -/
  | badChecksum
deriving DecidableEq, Repr

end Sys2Proof
end

