-- ==== Sys2Proof/WellFormed.lean ====
section
/-! DEFINITION. The check on instructions: a supplied payload has at most 255 bytes (spec/30_encoding.md rule R111,
spec/00_scope.md rule R1 MAX_PAYLOAD). Nothing else about an instruction can be ill-formed. -/

namespace Sys2Proof

/-- A payload that a frame can carry: absent, or at most MAX_PAYLOAD bytes (R111). -/
def payloadFits : Option (List Byte) → Bool
  | none => true
  | some p => decide (p.length ≤ Config.maxPayload)

/-- The check, constructor by constructor. -/
def Instr.wf : Instr → Bool
  | .encode => true
  | .decodeDesc => true
  | .await => true
  | .rsvd3 => true
  | .getInfo p => payloadFits p
  | .getHealth p => payloadFits p
  | .stop p => payloadFits p
  | .reset p => payloadFits p
  | .startScan p => payloadFits p
  | .forceScan p => payloadFits p
  | .setMotorPwm p => payloadFits p

/-- An instruction that has an encoding. -/
abbrev Instr.WellFormed (i : Instr) : Prop := i.wf = true

end Sys2Proof
end

