-- ==== Sys2Proof/Decode.lean ====
section
/-! DEFINITION. The decoder, total on every command word and every byte string, and after it the encoder, both from the
tables of spec/30_encoding.md (R100, R103, R110, R111, R120); then the host's view of the opcode table's words. -/

namespace Sys2Proof

/-- `XOR(s)` of a byte sequence, 0x00 for the empty one (R4). -/
def xorBytes (s : List Byte) : Byte := s.foldl (· ^^^ ·) 0x00#8

/-- The host command that a word written to CMD selects: bits [1:0], the others ignored (R100, R103). -/
def decodeCmd (w : Word) : Instr :=
  if w.extractLsb' 0 2 = 0#2 then .encode
  else if w.extractLsb' 0 2 = 1#2 then .decodeDesc
  else if w.extractLsb' 0 2 = 2#2 then .await
  else .rsvd3

/-- The device command that an opcode byte names (R120), or none for an unlisted opcode. -/
def deviceInstr (op : Byte) (payload : Option (List Byte)) : Option Instr :=
  if op = 0x50#8 then some (.getInfo payload)
  else if op = 0x52#8 then some (.getHealth payload)
  else if op = 0x25#8 then some (.stop payload)
  else if op = 0x40#8 then some (.reset payload)
  else if op = 0x20#8 then some (.startScan payload)
  else if op = 0x21#8 then some (.forceScan payload)
  else if op = 0xF0#8 then some (.setMotorPwm payload)
  else none

/-- What follows the opcode byte of a frame whose first two bytes are `head`: nothing (R110), or a length byte, that
many payload bytes and a checksum over everything before it (R111). -/
def decodePayload (head : List Byte) : List Byte → Except DecodeError (Option (List Byte))
  | [] => .ok none
  | len :: rest =>
    if rest.length ≠ len.toNat + 1 then .error .badLength
    else if rest.drop len.toNat ≠ [xorBytes (head ++ len :: rest.take len.toNat)] then .error .badChecksum
    else .ok (some (rest.take len.toNat))

/-- A wire frame's device command. A frame is not self-delimiting (R116), so the bytes given are the whole frame. -/
def decodeFrame : List Byte → Except DecodeError Instr
  | sync :: op :: rest =>
    if sync ≠ Config.sync1 then .error .badSync
    else match decodePayload [sync, op] rest with
      | .error e => .error e
      | .ok payload =>
        match deviceInstr op payload with
        | some i => .ok i
        | none => .error (.unlistedOpcode op)
  | _ => .error .tooShort

/-- The decoder. Every command word has a meaning (R103); a byte string that is no frame of the table is turned away
by name. -/
def decode : Encoding → Except DecodeError Instr
  | .cmdWord w => .ok (decodeCmd w)
  | .frame bytes => decodeFrame bytes

/-- The wire frame of an opcode and an optional payload, byte for byte as R110 and R111 lay it out. -/
def wireFrame (op : Byte) : Option (List Byte) → List Byte
  | none => [0xA5#8, op]
  | some p =>
    [0xA5#8, op, BitVec.ofNat 8 p.length] ++ p
      ++ [0xA5#8 ^^^ op ^^^ BitVec.ofNat 8 p.length ^^^ xorBytes p]

/-- The encoder: the words of a well-formed instruction (R103, R110, R111, R120). -/
def encode : Instr → Encoding
  | .encode => .cmdWord 0x00000000#32
  | .decodeDesc => .cmdWord 0x00000001#32
  | .await => .cmdWord 0x00000002#32
  | .rsvd3 => .cmdWord 0x00000003#32
  | .getInfo p => .frame (wireFrame 0x50#8 p)
  | .getHealth p => .frame (wireFrame 0x52#8 p)
  | .stop p => .frame (wireFrame 0x25#8 p)
  | .reset p => .frame (wireFrame 0x40#8 p)
  | .startScan p => .frame (wireFrame 0x20#8 p)
  | .forceScan p => .frame (wireFrame 0x21#8 p)
  | .setMotorPwm p => .frame (wireFrame 0xF0#8 p)

/-- Byte `k` of a number, byte 0 the least significant. -/
def natByte (w k : Nat) : Byte := BitVec.ofNat 8 (w / 2 ^ (8 * k))

/-- The `n` bytes of a number, most significant first: the order in which the opcode table writes a wire row's bits. -/
def bytesHighFirst (n w : Nat) : List Byte := (List.range n).map fun k => natByte w (n - 1 - k)

/-- The `n` bytes of a number, least significant first. -/
def bytesLowFirst (n w : Nat) : List Byte := (List.range n).map fun k => natByte w k

/-- The words that a table row's number stands for. A wire row's number is read with its first byte highest, as the
table's "encoding" and "fixed" write it, or lowest where only that order is a frame; every other number is a command
word, which CMD takes whole (notes/assumptions/12). -/
def tableEncoding (nbits w : Nat) : Encoding :=
  if 16 ≤ nbits ∧ (decodeFrame (bytesHighFirst (nbits / 8) w)).toOption.isSome then
    .frame (bytesHighFirst (nbits / 8) w)
  else if 16 ≤ nbits ∧ (decodeFrame (bytesLowFirst (nbits / 8) w)).toOption.isSome then
    .frame (bytesLowFirst (nbits / 8) w)
  else .cmdWord (BitVec.ofNat 32 w)

/-- The instruction the decoder reads from a table row's number. -/
def decodeTableWord (nbits w : Nat) : Option Instr := (decode (tableEncoding nbits w)).toOption

end Sys2Proof
end

