-- ==== Sys2Proof/Machine/State.lean ====
section
/-! DEFINITION. The state of the block (spec/10_state.md), the events its environment schedules (rule R51), the reasons
a step can stop, and the state right after reset (spec/70_reset_and_hazards.md rules R250, R252). -/

namespace Sys2Proof.Machine

/-- The sequencer state `seq` (R40). -/
inductive Seq where
  /-- No host command running. -/
  | idle
  /-- ENCODE accepted, not yet completed. -/
  | enc
  /-- DECODE_DESC accepted, not yet completed. -/
  | dec
  /-- AWAIT: an available query is due or outstanding. -/
  | poll
  /-- AWAIT: waiting for the next tick. -/
  | wait
  /-- AWAIT: the read request is due or outstanding. -/
  | read
deriving DecidableEq, Repr

/-- What the host bus does in a reset clock (R250): nothing, a write, or a read. -/
inductive BusCycle where
  | quiet
  | write (a : Addr) (d : Word)
  | read (a : Addr)
deriving DecidableEq, Repr

/-- The labels of the transition system (R51), each one atomic step of one agent (R20), and the signal-level steps that
Poll and Read refine into (R49, R113, R114). The values in them are the environment's draws (R53): any count, any
bytes, any order. -/
inductive Event where
  /-- HostWrite(a, d) (R76). -/
  | hostWrite (a : Addr) (d : Word)
  /-- HostRead(a) (R77). -/
  | hostRead (a : Addr)
  /-- The host runs the pseudo-operation ENCODE for a device command, given as its wire frame (R119, R200 to R206). -/
  | deviceCommand (frame : List Byte)
  /-- EncComplete (R132). -/
  | encComplete
  /-- DecComplete (R151). -/
  | decComplete
  /-- Poll(c): a whole available query, answered `c` (R173). -/
  | poll (c : Word)
  /-- One strobe of the tick input (R48, R175). -/
  | tick
  /-- Read(d): a whole read request, answered `d` (R176). -/
  | read (d : List Byte)
  /-- A clock in which the channel has `cq_ready = 1` (R49). -/
  | cqReady
  /-- A response beat, `cr_valid = 1` (R49, R113, R114). -/
  | crBeat (last : Bool) (data : Byte) (count : Word)
  /-- A clock with `rst = 1`, and what the host bus does in it (R250). -/
  | reset (bus : BusCycle)
  /-- A clock in which the host asserts `h_wr` and `h_rd` together (R47, R237). -/
  | busConflict (a : Addr) (d : Word)
deriving DecidableEq, Repr

/-- The stored fields of STATUS (R26 to R29). STATUS.BUSY is not stored: it is read from `seq` (R25). -/
structure Status where
  done : Bool
  err : Bool
  ovr : Bool
  errCode : BitVec 4
deriving DecidableEq, Repr

/-- The fields of ENC_CTRL (R30). -/
structure EncCtrl where
  opcode : Byte
  len : BitVec 9
  hasPayload : Bool
deriving DecidableEq, Repr

/-- The fields of DESC_INFO (R34). -/
structure DescInfo where
  mode : BitVec 2
  single : Bool
  type : Byte
  valid : Bool
deriving DecidableEq, Repr

/-- The channel request in progress (R49, R113 to R115): whether one is offered (`cq_valid`), whether one has been taken
and not yet answered, and how many data beats of a read's response have come. -/
structure Channel where
  cqValid : Bool
  outstanding : Bool
  beats : Nat
deriving DecidableEq, Repr

/-- The machine. Reserved register bits are not stored: they read 0 and ignore writes (R21, R23, R105). -/
structure State where
  /-- The sequencer state (R40). -/
  seq : Seq
  /-- STATUS (R25 to R29). -/
  status : Status
  /-- ENC_CTRL (R30). -/
  encCtrl : EncCtrl
  /-- FRAME_LEN.LEN (R31). -/
  frameLen : BitVec 9
  /-- DESC_RAW (R32). -/
  descRaw : Word
  /-- DESC_LEN.LEN (R33). -/
  descLen : BitVec 30
  /-- DESC_INFO (R34). -/
  descInfo : DescInfo
  /-- RR_N.N (R35). -/
  rrN : BitVec 16
  /-- RR_TIMEOUT.T (R36). -/
  rrTimeout : Word
  /-- RR_GOT.N (R37). -/
  rrGot : BitVec 16
  /-- RR_ELAPSED (R38). -/
  rrElapsed : Word
  /-- RR_AVAIL (R39). -/
  rrAvail : Word
  /-- PLBUF, FRAMEBUF and RXBUF (R42 to R44): the bytes written since power-up, keyed by host window offset, addresses
  strictly rising. A byte not listed has not been written and reads as a free value (R89). -/
  mem : List Host.Cell
  /-- The channel request in progress (R49). -/
  chan : Channel
  /-- The host bus read data port `h_rdata` (R47), as the last host read left it. -/
  hRdata : Word
  /-- The model's own: how many free values have been drawn, so that each draw is a fresh one. -/
  draws : Nat
  /-- The model's own: the events to come, in the order they happen (R51). -/
  schedule : List Event
deriving DecidableEq, Repr

/-- Why the machine would stop with a fault. It has no constructor: the block never traps and no access faults
(R5, R71; spec/60_exceptions.md). Errors are completions with a code in STATUS (R220, R222). -/
inductive Fault where
deriving DecidableEq, Repr

/-- Why a step has no meaning. -/
inductive Refusal where
  /-- Raised by an arm of `exec` whose instruction has no meaning yet. Safe: the run stops. -/
  | notModelled (mnemonic : String)
  /-- Raised by `step` for a device command event whose bytes are no frame of the opcode table. Safe: the run stops. -/
  | undecodable (why : DecodeError)
  /-- Raised by `step` when `h_wr` and `h_rd` are asserted together: "behaviour is not specified; a model refuses such
  a run" (R237). Safe: the run stops. -/
  | busConflict
deriving DecidableEq, Repr

/-- The machine right after reset (R250, R252): every register 0, the sequencer idle, no channel request, no buffer byte
written, and an empty schedule. `hRdata` and `draws` are the model's choices (notes/assumptions/4 and 3). -/
def State.reset : State where
  seq := .idle
  status := { done := false, err := false, ovr := false, errCode := 0#4 }
  encCtrl := { opcode := 0#8, len := 0#9, hasPayload := false }
  frameLen := 0#9
  descRaw := 0#32
  descLen := 0#30
  descInfo := { mode := 0#2, single := false, type := 0#8, valid := false }
  rrN := 0#16
  rrTimeout := 0#32
  rrGot := 0#16
  rrElapsed := 0#32
  rrAvail := 0#32
  mem := []
  chan := { cqValid := false, outstanding := false, beats := 0 }
  hRdata := 0#32
  draws := 0
  schedule := []

end Sys2Proof.Machine
end

