-- ==== Sys2Proof/Machine/Operands.lean ====
section
/-! DEFINITION. Where things stand and how they are assembled: the word offset of a host address (R71), which window
bytes are storage (R42 to R44), little-endian words (R73, R112), the fields of a written word (R76), and the operands
of the commands (R102). -/

namespace Sys2Proof.Machine

/-- The word offset of a host address: bits [1:0] are ignored (R71). -/
def wordOffset (a : Addr) : Nat := a.toNat / 4 * 4

/-- A window byte that is storage: PLBUF, FRAMEBUF bytes 0 to 258, or RXBUF (R42, R43, R44). -/
def isStorage (a : Nat) : Bool :=
  decide (Config.plBase ≤ a ∧ a < Config.frameBase + Config.frameMax)
    || decide (Config.rxBase ≤ a ∧ a < Config.rxBase + Config.rxBytes)

/-- A window offset inside PLBUF (R42). -/
def inPlbuf (a : Nat) : Bool := decide (Config.plBase ≤ a ∧ a < Config.plBase + Config.plBytes)

/-- A window offset inside the FRAMEBUF window, its unused tail included (R43). -/
def inFrameWindow (a : Nat) : Bool := decide (Config.frameBase ≤ a ∧ a < Config.rxBase)

/-- A window offset inside RXBUF (R44). -/
def inRxbuf (a : Nat) : Bool := decide (Config.rxBase ≤ a ∧ a < Config.rxBase + Config.rxBytes)

/-- A word from four bytes, the first the least significant (R73, R112). -/
def leWord (b0 b1 b2 b3 : Byte) : Word :=
  b0.setWidth 32 ||| b1.setWidth 32 <<< 8 ||| b2.setWidth 32 <<< 16 ||| b3.setWidth 32 <<< 24

/-- The four bytes of a word, the least significant first (R73). -/
def leBytes (w : Word) : List Byte :=
  [w.extractLsb' 0 8, w.extractLsb' 8 8, w.extractLsb' 16 8, w.extractLsb' 24 8]

/-- The ENC_CTRL fields of a written word, its reserved bits ignored (R30, R76, R105). -/
def encCtrlOf (d : Word) : EncCtrl where
  opcode := d.extractLsb' 0 8
  len := d.extractLsb' 8 9
  hasPayload := d.getLsbD 24

/-- AWAIT's count as a number (R102). -/
def awaitN (s : State) : Nat := s.rrN.toNat

/-- The bytes of a word sequence that WRB writes: four to a word, the last word padded with 00 (R118). -/
def wrbWords : List Byte → List Word
  | [] => []
  | [b0] => [leWord b0 0#8 0#8 0#8]
  | [b0, b1] => [leWord b0 b1 0#8 0#8]
  | [b0, b1, b2] => [leWord b0 b1 b2 0#8]
  | b0 :: b1 :: b2 :: b3 :: rest => leWord b0 b1 b2 b3 :: wrbWords rest

/-- A run of word writes from window offset `a` on. -/
def writesFrom (a : Nat) : List Word → List (Addr × Word)
  | [] => []
  | w :: ws => (BitVec.ofNat 11 a, w) :: writesFrom (a + 4) ws

/-- The ENC_CTRL word of the pseudo-operation ENCODE (R119). A payload longer than the 9-bit LEN can say asks for
LEN = 511, so that it is refused like every payload over 255 bytes (notes/assumptions/8). -/
def encodeCtrlWord (op : Byte) : Option (List Byte) → Word
  | none => op.setWidth 32
  | some p => 0x01000000#32 ||| BitVec.ofNat 32 (min p.length 511) <<< 8 ||| op.setWidth 32

/-- The payload writes of the pseudo-operation ENCODE: WRB into PLBUF, whose 256 bytes are all there is
(R118, R119; notes/assumptions/8). -/
def encodePayloadWrites : Option (List Byte) → List (Addr × Word)
  | none => []
  | some p => writesFrom Config.plBase (wrbWords (p.take Config.plBytes))

/-- The pseudo-operation ENCODE as its host writes: the payload into PLBUF, ENC_CTRL, then CMD (R119). -/
def encodeWrites (op : Byte) (payload : Option (List Byte)) : List (Addr × Word) :=
  encodePayloadWrites payload ++ [(0x008#11, encodeCtrlWord op payload), (0x000#11, 0x00000000#32)]

/-- The pseudo-operation DECODE_DESC as its host writes (R119). -/
def decodeDescWrites : List (Addr × Word) := [(0x000#11, 0x00000001#32)]

/-- The pseudo-operation AWAIT n, T as its host writes (R119). -/
def awaitWrites (n t : Word) : List (Addr × Word) :=
  [(0x01C#11, n), (0x020#11, t), (0x000#11, 0x00000002#32)]

end Sys2Proof.Machine
end

