-- ==== Sys2Proof/Machine/Flags.lean ====
section
/-! DEFINITION. The flags of STATUS: BUSY from the sequencer (R25), the word a host reads (R77), and the three ways
STATUS is written: at acceptance (R101), by a completion (R222), by a write while busy (R28). -/

namespace Sys2Proof.Machine

/-- One flag as a bit of a word. -/
def bit (b : Bool) : Word := if b then 1#32 else 0#32

/-- STATUS.BUSY reads 1 exactly when `seq` is not IDLE (R25). -/
def busy (s : State) : Bool := decide (s.seq ≠ .idle)

/-- AWAIT is running: its result registers read unspecified (R54). -/
def awaiting (q : Seq) : Bool := decide (q = .poll ∨ q = .wait ∨ q = .read)

/-- STATUS after a command is accepted: DONE, ERR, ERR_CODE and OVR cleared (R101). -/
def Status.accepted : Status := { done := false, err := false, ovr := false, errCode := 0#4 }

/-- STATUS after `complete(e)`: DONE set, the code and ERR written, OVR unchanged (R222). -/
def Status.completed (st : Status) (e : BitVec 4) : Status :=
  { st with done := true, err := decide (e ≠ 0#4), errCode := e }

/-- STATUS after a host write while busy: OVR set, nothing else (R28, R76). -/
def Status.overrun (st : Status) : Status := { st with ovr := true }

/-- The word a read of STATUS returns (R77). -/
def statusWord (s : State) : Word :=
  s.status.errCode.setWidth 32 <<< 8 ||| bit s.status.ovr <<< 3 ||| bit s.status.err <<< 2
    ||| bit s.status.done <<< 1 ||| bit (busy s)

end Sys2Proof.Machine
end

