-- ==== Sys2Proof/Machine/Ops.lean ====
section
/-! DEFINITION. The shared operations: the buffer memory, the frame function (R131), completing a command (R222, the
block's only way of reporting an error), accepting one (R101, the only thing that clears the record of an error), and
the guard every host write goes through (R76). -/

namespace Sys2Proof.Machine

/-- The form of the buffer memory: addresses strictly rising, every listed address a storage byte. -/
abbrev Memory.wf (m : List Host.Cell) : Prop :=
  m.Pairwise (fun x y => x.1 < y.1) ∧ ∀ c ∈ m, isStorage c.1 = true

/-- The byte stored at an address, none if nothing has written it. -/
def storedByte : List Host.Cell → Nat → Option Byte
  | [], _ => none
  | (a', b) :: m, a => if a = a' then some b else storedByte m a

/-- What a read of a storage byte gives: the byte stored, or the k-th free byte where nothing has written it (R89). -/
def readByte (m : List Host.Cell) (a k : Nat) : Byte :=
  match storedByte m a with
  | some b => b
  | none => Config.freeByte k

/-- The bytes at addresses a to a + n - 1, the i-th drawn as the (k + i)-th free byte where unwritten. -/
def readBytes (m : List Host.Cell) (a k n : Nat) : List Byte :=
  (List.range n).map fun i => readByte m (a + i) (k + i)

/-- Put a byte at an address of a memory in order, keeping the order. -/
def putByte : List Host.Cell → Nat → Byte → List Host.Cell
  | [], a, b => [(a, b)]
  | (a', b') :: m, a, b =>
    if a < a' then (a, b) :: (a', b') :: m
    else if a = a' then (a, b) :: m
    else (a', b') :: putByte m a b

/-- Write a byte. An address that is no storage byte holds nothing, and the write is dropped (R41, R43;
notes/assumptions/13). -/
def writeByte (m : List Host.Cell) (a : Nat) (b : Byte) : List Host.Cell :=
  if isStorage a then putByte m a b else m

/-- Write bytes from an address on, in order. -/
def writeBytes (m : List Host.Cell) (a : Nat) : List Byte → List Host.Cell
  | [] => m
  | b :: bs => writeBytes (writeByte m a b) (a + 1) bs

/-- The frame function (R131): the frame of an opcode, or none where a payload over 255 bytes is supplied. -/
def frame (op : Byte) (hasPayload : Bool) (len : Nat) (p : List Byte) : Option (List Byte) :=
  if hasPayload = false then some [Config.sync1, op]
  else if Config.maxPayload < len then none
  else
    let f := [Config.sync1, op, BitVec.ofNat 8 len] ++ p.take len
    some (f ++ [xorBytes f])

/-- `complete(e)` (R222): the command ends, its outcome in STATUS. The block's one way of reporting an error: it saves no
return state, changes no mode and jumps nowhere. -/
def complete (e : BitVec 4) (s : State) : State :=
  { s with seq := .idle, status := s.status.completed e }

/-- Acceptance clears DONE, ERR, ERR_CODE and OVR (R101). There is no return from an error: this is what ends its
record (R227). -/
def clearStatus (s : State) : State := { s with status := Status.accepted }

/-- A host write while busy sets OVR and does nothing else; while idle it does what it is for (R76). -/
def whenIdle (f : State → State) (s : State) : State :=
  if busy s then { s with status := s.status.overrun } else f s

/-- Acceptance of ENCODE (R101, R130). -/
def acceptEncode (s : State) : State := { clearStatus s with seq := .enc }

/-- Acceptance of DECODE_DESC (R101, R150). -/
def acceptDecodeDesc (s : State) : State := { clearStatus s with seq := .dec }

/-- The channel with a request just offered (R113, R114). -/
def Channel.offered : Channel := { cqValid := true, outstanding := false, beats := 0 }

/-- The channel with no request in progress (R250). -/
def Channel.quiet : Channel := { cqValid := false, outstanding := false, beats := 0 }

/-- Acceptance of AWAIT (R101, R171): refused with error 6 where RR_N is over 1024, before any channel request;
otherwise the results are cleared and the first query is due. -/
def acceptAwait (s : State) : State :=
  if Config.rxBytes < awaitN s then complete 6#4 (clearStatus s)
  else
    { clearStatus s with
      rrGot := 0#16, rrElapsed := 0#32, rrAvail := 0#32, seq := .poll, chan := Channel.offered }

/-- Acceptance of the reserved command: it completes inside `accept` with error 5 (R101, R104). -/
def acceptRsvd3 (s : State) : State := complete 5#4 (clearStatus s)

/-- `accept(op)` (R101). -/
def accept (op : BitVec 2) (s : State) : State :=
  if op = 0#2 then acceptEncode s
  else if op = 1#2 then acceptDecodeDesc s
  else if op = 2#2 then acceptAwait s
  else acceptRsvd3 s

end Sys2Proof.Machine
end

