-- ==== Sys2Proof/Machine/Bus.lean ====
section
/-! DEFINITION. The host bus: HostWrite (R76), HostRead (R77) with the values R54 and R89 leave unspecified drawn as free
values, and the reset clock (R250). -/

namespace Sys2Proof.Machine

/-- A host write to word offset `o` while idle (R76). CMD issues a command; ENC_CTRL, RR_N, RR_TIMEOUT, PLBUF and RXBUF
store; every other offset ignores the write. -/
def writeIdle (o : Nat) (d : Word) (s : State) : State :=
  if o = 0x000 then accept (d.extractLsb' 0 2) s
  else if o = 0x008 then { s with encCtrl := encCtrlOf d }
  else if o = 0x01C then { s with rrN := d.extractLsb' 0 16 }
  else if o = 0x020 then { s with rrTimeout := d }
  else if inPlbuf o || inRxbuf o then { s with mem := writeBytes s.mem o (leBytes d) }
  else s

/-- HostWrite(a, d) (R76). -/
def hostWrite (a : Addr) (d : Word) (s : State) : State := whenIdle (writeIdle (wordOffset a) d) s

/-- Host writes one after another, in issue order (R78). -/
def hostWrites : List (Addr × Word) → State → State
  | [], s => s
  | (a, d) :: rest, s => hostWrites rest (hostWrite a d s)

/-- A result field: its value, or a free value of its width where the command that writes it is running (R54). -/
def fieldOr {n : Nat} (hidden : Bool) (k : Nat) (v : BitVec n) : BitVec n :=
  if hidden then (Config.freeWord k).setWidth n else v

/-- The word of DESC_INFO's fields (R77). -/
def descInfoWord (i : DescInfo) : Word :=
  bit i.valid <<< 31 ||| i.type.setWidth 32 <<< 16 ||| bit i.single <<< 8 ||| i.mode.setWidth 32

/-- The DESC_INFO fields at their places in a word (R34): used for the free value a read finds while DECODE_DESC runs,
so that the reserved bits read 0 even then (notes/assumptions/20). -/
def descInfoOf (w : Word) : DescInfo where
  mode := w.extractLsb' 0 2
  single := w.getLsbD 8
  type := w.extractLsb' 16 8
  valid := w.getLsbD 31

/-- The word of ENC_CTRL's fields (R77). -/
def encCtrlWord (c : EncCtrl) : Word :=
  bit c.hasPayload <<< 24 ||| c.len.setWidth 32 <<< 8 ||| c.opcode.setWidth 32

/-- A read of the register at word offset `o` (R77, R54). CMD and the reserved offsets read 0 (R24, R41). -/
def readRegister (s : State) (o : Nat) : Word :=
  if o = 0x004 then statusWord s
  else if o = 0x008 then encCtrlWord s.encCtrl
  else if o = 0x00C then (fieldOr (decide (s.seq = .enc)) s.draws s.frameLen).setWidth 32
  else if o = 0x010 then fieldOr (decide (s.seq = .dec)) s.draws s.descRaw
  else if o = 0x014 then (fieldOr (decide (s.seq = .dec)) s.draws s.descLen).setWidth 32
  else if o = 0x018 then
    descInfoWord (if s.seq = .dec then descInfoOf (Config.freeWord s.draws) else s.descInfo)
  else if o = 0x01C then s.rrN.setWidth 32
  else if o = 0x020 then s.rrTimeout
  else if o = 0x024 then (fieldOr (awaiting s.seq) s.draws s.rrGot).setWidth 32
  else if o = 0x028 then s.rrElapsed
  else if o = 0x02C then s.rrAvail
  else 0#32

/-- A buffer byte is a result of the running command: FRAMEBUF during ENCODE, RXBUF during AWAIT (R54). -/
def hiddenByte (s : State) (a : Nat) : Bool :=
  (decide (s.seq = .enc) && inFrameWindow a) || (awaiting s.seq && inRxbuf a)

/-- A read of one window byte at or above 0x100, its draw numbered `k` (R77, R54, R89). What is no storage reads 0
(R43). -/
def windowByte (s : State) (a k : Nat) : Byte :=
  if isStorage a = false then 0x00#8
  else if hiddenByte s a then Config.freeByte k
  else readByte s.mem a k

/-- The value a host read of word offset `o` returns (R77). -/
def readWord (s : State) (o : Nat) : Word :=
  if o < Config.plBase then readRegister s o
  else leWord (windowByte s o s.draws) (windowByte s (o + 1) (s.draws + 1))
    (windowByte s (o + 2) (s.draws + 2)) (windowByte s (o + 3) (s.draws + 3))

/-- HostRead(a) (R77): the value goes to `h_rdata`; nothing else of the block changes. The draw counter moves past the
draws a read can take. -/
def hostRead (a : Addr) (s : State) : State :=
  { s with hRdata := readWord s (wordOffset a), draws := s.draws + 4 }

/-- Every register to its reset value, the sequencer idle, the request dropped; the buffers keep their contents
(R250, R251; notes/assumptions/10). -/
def resetRegisters (s : State) : State :=
  { State.reset with mem := s.mem, hRdata := s.hRdata, draws := s.draws, schedule := s.schedule }

/-- A clock with `rst = 1` (R250): a write in it has no effect, a read in it returns an unspecified value. -/
def resetClock (bus : BusCycle) (s : State) : State :=
  match bus with
  | .quiet => resetRegisters s
  | .write _ _ => resetRegisters s
  | .read _ => { resetRegisters s with hRdata := Config.freeWord s.draws, draws := s.draws + 1 }

end Sys2Proof.Machine
end

