-- ==== Sys2Proof/Machine/DescriptorParser.lean ====
section
/-! DEFINITION. DECODE_DESC (spec/41_descriptor_parser.md): its acceptance and its completion step. -/

namespace Sys2Proof.Machine

/-- Byte `i` of DECODE_DESC's input, `RXBUF[i]` (R102, R150), drawn where nothing has written it (R155). -/
def descByte (s : State) (i : Nat) : Byte := readByte s.mem (Config.rxBase + i) (s.draws + i)

/-- The length-and-mode word of the descriptor, bytes 2 to 5 little-endian (R112, R151). -/
def descWord (s : State) : Word := leWord (descByte s 2) (descByte s 3) (descByte s 4) (descByte s 5)

/-- DESC_INFO of a descriptor whose length-and-mode word is `w` and whose seventh byte is `tag` (R151, R152). -/
def descInfoFor (w : Word) (tag : Byte) : DescInfo where
  mode := w.extractLsb' 30 2
  single := decide (w.extractLsb' 30 2 = 0#2)
  type := tag
  valid := true

/-- DecComplete (R151). In any other sequencer state there is no such step and nothing changes. -/
def decComplete (s : State) : State :=
  if s.seq = .dec then
    if descByte s 0 ≠ Config.sync1 ∨ descByte s 1 ≠ Config.sync2 then
      complete 2#4
        { s with
          descRaw := 0#32
          descLen := 0#30
          descInfo := { mode := 0#2, single := false, type := 0#8, valid := false }
          draws := s.draws + Config.descBytes }
    else
      complete 0#4
        { s with
          descRaw := descWord s
          descLen := (descWord s).extractLsb' 0 30
          descInfo := descInfoFor (descWord s) (descByte s 6)
          draws := s.draws + Config.descBytes }
  else s

/-- DECODE_DESC (R150): accepted while idle; the descriptor is parsed by DecComplete after LAT_DEC clocks. -/
def execDecodeDesc (s : State) : Host.Outcome State Fault Refusal := .next (whenIdle acceptDecodeDesc s)

end Sys2Proof.Machine
end

