-- ==== Sys2Proof/Machine/DeviceCommands.lean ====
section
/-! DEFINITION. The seven device commands (spec/43_wire_commands.md R200 to R206). To the block each is ENCODE of an opcode
byte: the host writes the payload and ENC_CTRL and issues ENCODE (R119), and EncComplete builds the frame. -/

namespace Sys2Proof.Machine

/-- The pseudo-operation ENCODE for an opcode and an optional payload (R119), its host writes one after another
(notes/assumptions/7). -/
def issueEncode (op : Byte) (payload : Option (List Byte)) (s : State) : State :=
  hostWrites (encodeWrites op payload) s

/-- GET_INFO, opcode 0x50 (R200). -/
def execGetInfo (payload : Option (List Byte)) (s : State) : Host.Outcome State Fault Refusal :=
  .next (issueEncode 0x50#8 payload s)

/-- GET_HEALTH, opcode 0x52 (R201). -/
def execGetHealth (payload : Option (List Byte)) (s : State) : Host.Outcome State Fault Refusal :=
  .next (issueEncode 0x52#8 payload s)

/-- STOP, opcode 0x25 (R202). -/
def execStop (payload : Option (List Byte)) (s : State) : Host.Outcome State Fault Refusal :=
  .next (issueEncode 0x25#8 payload s)

/-- RESET, opcode 0x40 (R203). -/
def execReset (payload : Option (List Byte)) (s : State) : Host.Outcome State Fault Refusal :=
  .next (issueEncode 0x40#8 payload s)

/-- START_SCAN, opcode 0x20 (R204). -/
def execStartScan (payload : Option (List Byte)) (s : State) : Host.Outcome State Fault Refusal :=
  .next (issueEncode 0x20#8 payload s)

/-- FORCE_SCAN, opcode 0x21 (R205). -/
def execForceScan (payload : Option (List Byte)) (s : State) : Host.Outcome State Fault Refusal :=
  .next (issueEncode 0x21#8 payload s)

/-- SET_MOTOR_PWM, opcode 0xF0 (R206). -/
def execSetMotorPwm (payload : Option (List Byte)) (s : State) : Host.Outcome State Fault Refusal :=
  .next (issueEncode 0xF0#8 payload s)

end Sys2Proof.Machine
end

