-- ==== Sys2Proof/Machine/Encoder.lean ====
section
/-! DEFINITION. ENCODE (spec/40_frame_encoder.md): its acceptance and its completion step. -/

namespace Sys2Proof.Machine

/-- The payload ENCODE reads, `PLBUF[0..LEN-1]` (R102, R130). Each byte is read once, so an unwritten byte is one draw that
goes into the frame and into the checksum alike (R89; notes/assumptions/19). -/
def payloadOperand (s : State) : List Byte :=
  readBytes s.mem Config.plBase s.draws s.encCtrl.len.toNat

/-- The frame ENCODE builds from its operands, none where it fails (R131, R132). -/
def encodeResult (s : State) : Option (List Byte) :=
  frame s.encCtrl.opcode s.encCtrl.hasPayload s.encCtrl.len.toNat (payloadOperand s)

/-- EncComplete (R132). In any other sequencer state there is no such step and nothing changes. -/
def encComplete (s : State) : State :=
  if s.seq = .enc then
    match encodeResult s with
    | none => complete 1#4 { s with frameLen := 0#9 }
    | some r =>
      complete 0#4
        { s with
          mem := writeBytes s.mem Config.frameBase r
          frameLen := BitVec.ofNat 9 r.length
          draws := s.draws + s.encCtrl.len.toNat }
  else s

/-- ENCODE (R130): accepted while idle; the frame is built by EncComplete after LAT_ENC clocks. -/
def execEncode (s : State) : Host.Outcome State Fault Refusal := .next (whenIdle acceptEncode s)

end Sys2Proof.Machine
end

