-- ==== Sys2Proof/Machine/Reserved.lean ====
section
/-! DEFINITION. RSVD3, the reserved host command (spec/30_encoding.md R104). -/

namespace Sys2Proof.Machine

/-- RSVD3 (R104): completes inside its acceptance with error 5, CMD_RESERVED_OP. -/
def execRsvd3 (s : State) : Host.Outcome State Fault Refusal := .next (whenIdle acceptRsvd3 s)

end Sys2Proof.Machine
end

