-- ==== Sys2Proof/Machine/ResponseReader.lean ====
section
/-! DEFINITION. AWAIT (spec/42_response_reader.md): its acceptance, the steps of its poll loop as whole channel
transactions (R173, R175, R176), and the same transactions as the clocks of the channel handshake
(spec/30_encoding.md R113 to R115). -/

namespace Sys2Proof.Machine

/-- Poll(c) (R173): the query in progress is answered `c`. In any other sequencer state the answer is a stray response
and is discarded (R115). -/
def pollStep (c : Word) (s : State) : State :=
  if s.seq = .poll then
    if s.rrN.setWidth 32 ≤ c then
      { s with rrAvail := c, seq := .read, chan := Channel.offered }
    else if s.rrTimeout ≤ s.rrElapsed then
      complete 4#4 { s with rrAvail := c, chan := Channel.quiet }
    else
      { s with rrAvail := c, seq := .wait, chan := Channel.quiet }
  else s

/-- Tick (R175): counted only in WAIT, where it makes the next query due. -/
def tickStep (s : State) : State :=
  if s.seq = .wait then
    { s with rrElapsed := s.rrElapsed + 1#32, seq := .poll, chan := Channel.offered }
  else s

/-- Data bytes of a read response stored from index `k` on: byte i goes to `RXBUF[k + i]` when `k + i < n`, and is
discarded otherwise (R114, R176). -/
def storeReceived (s : State) (d : List Byte) : List Host.Cell :=
  writeBytes s.mem (Config.rxBase + s.chan.beats) (d.take (awaitN s - s.chan.beats))

/-- The bytes of the response that count, at most `n`, once `d` has followed the beats already taken (R176). -/
def receivedCount (s : State) (d : List Byte) : Nat := min (s.chan.beats + d.length) (awaitN s)

/-- Read(d) (R176): the read request in progress delivers `d` and ends. With no data beat taken before it, `d` is the
whole response; after some beats it is the rest of it (notes/assumptions/11). In any other sequencer state it is a stray
response and is discarded (R115). -/
def readStep (d : List Byte) (s : State) : State :=
  if s.seq = .read then
    complete (if receivedCount s d < awaitN s then 3#4 else 0#4)
      { s with
        mem := storeReceived s d
        rrGot := BitVec.ofNat 16 (receivedCount s d)
        chan := Channel.quiet }
  else s

/-- A clock with `cq_ready = 1` (R49, R113, R114): an offered request is taken. -/
def takeRequest (s : State) : State :=
  if s.chan.cqValid then { s with chan := { s.chan with cqValid := false, outstanding := true } } else s

/-- A data beat of a read response (R114). -/
def dataBeat (b : Byte) (s : State) : State :=
  { s with mem := storeReceived s [b], chan := { s.chan with beats := s.chan.beats + 1 } }

/-- A response beat (R113, R114, R115). With no request outstanding it is discarded. The answer to a query is its last
beat, earlier ones are discarded; a read's data beats are stored and its last beat ends it. -/
def responseBeat (last : Bool) (data : Byte) (count : Word) (s : State) : State :=
  if s.chan.outstanding then
    match s.seq with
    | .poll => if last then pollStep count s else s
    | .read => if last then readStep [] s else dataBeat data s
    | .idle => s
    | .enc => s
    | .dec => s
    | .wait => s
  else s

/-- AWAIT (R170, R171): accepted while idle, or refused with error 6; it then runs by the steps above. -/
def execAwait (s : State) : Host.Outcome State Fault Refusal := .next (whenIdle acceptAwait s)

end Sys2Proof.Machine
end

