-- ==== Sys2Proof/Machine/Dispatch.lean ====
section
/-! DEFINITION. One arm per instruction, each one call of its meaning. -/

namespace Sys2Proof.Machine

def exec (i : Instr) (s : State) : Host.Outcome State Fault Refusal :=
  match i with
  | .encode => Sys2Proof.Machine.execEncode s
  | .decodeDesc => Sys2Proof.Machine.execDecodeDesc s
  | .await => Sys2Proof.Machine.execAwait s
  | .rsvd3 => Sys2Proof.Machine.execRsvd3 s
  | .getInfo payload => Sys2Proof.Machine.execGetInfo payload s
  | .getHealth payload => Sys2Proof.Machine.execGetHealth payload s
  | .stop payload => Sys2Proof.Machine.execStop payload s
  | .reset payload => Sys2Proof.Machine.execReset payload s
  | .startScan payload => Sys2Proof.Machine.execStartScan payload s
  | .forceScan payload => Sys2Proof.Machine.execForceScan payload s
  | .setMotorPwm payload => Sys2Proof.Machine.execSetMotorPwm payload s

end Sys2Proof.Machine
end

