-- ==== Sys2Proof/Machine/Events.lean ====
section
/-! DEFINITION. What each event of the schedule is (R51): an instruction to decode and run, or a step of the bus, the
sequencer, the channel, the tick source or reset. -/

namespace Sys2Proof.Machine

/-- A step that always has a next state. -/
def stepping (f : State → State) (s : State) : Host.Outcome State Fault Refusal := .next (f s)

/-- An event's action. A write to CMD and a device command hold an instruction's words; everything else is a step of its
own (R51). -/
def eventAction : Event → Encoding ⊕ (State → Host.Outcome State Fault Refusal)
  | .hostWrite a d =>
    if wordOffset a = 0x000 then .inl (.cmdWord d) else .inr (stepping (hostWrite a d))
  | .hostRead a => .inr (stepping (hostRead a))
  | .deviceCommand bytes => .inl (.frame bytes)
  | .encComplete => .inr (stepping encComplete)
  | .decComplete => .inr (stepping decComplete)
  | .poll c => .inr (stepping (pollStep c))
  | .tick => .inr (stepping tickStep)
  | .read d => .inr (stepping (readStep d))
  | .cqReady => .inr (stepping takeRequest)
  | .crBeat last data count => .inr (stepping (responseBeat last data count))
  | .reset bus => .inr (stepping (resetClock bus))
  | .busConflict _ _ => .inr fun _ => .refused .busConflict

/-- The event in which the host gives the block an instruction's words: a write to CMD, or a device command. -/
def fetchEvent : Encoding → Event
  | .cmdWord w => .hostWrite 0x000#11 w
  | .frame bytes => .deviceCommand bytes

/-- The state with the first event taken off the schedule. -/
def popEvent (s : State) : State := { s with schedule := s.schedule.tail }

end Sys2Proof.Machine
end

