-- ==== Sys2Proof/Machine/Step.lean ====
section
/-! DEFINITION. One step of the machine: the schedule's first event (R51), and the place where the next instruction's
words stand. -/

namespace Sys2Proof.Machine

/-- One step. With nothing scheduled no agent moves and the state stays. An event that holds an instruction's words is
decoded and run by `exec`; every other event takes its own step. -/
def step (s : State) : Host.Outcome State Fault Refusal :=
  match s.schedule with
  | [] => .next s
  | e :: _ =>
    match eventAction e with
    | .inl words =>
      match decode words with
      | .ok i => exec i (popEvent s)
      | .error why => .refused (.undecodable why)
    | .inr act => act (popEvent s)

/-- The state whose next step fetches and runs the instruction of a table row's number: its words put first on the
schedule, as the host gives them to the block (notes/assumptions/5). -/
def State.withFetchWord (s : State) (nbits w : Nat) : State :=
  { s with schedule := fetchEvent (tableEncoding nbits w) :: s.schedule }

end Sys2Proof.Machine
end

