-- ==== Sys2Proof/Machine/Ports.lean ====
section
/-! DEFINITION. The output ports, computed from the state (R49, R113, R114). `cq_valid` is stored in `chan.cqValid` and
`h_rdata` in `hRdata`. -/

namespace Sys2Proof.Machine

/-- `cq_valid`: a request is offered (R49). -/
def cqValid (s : State) : Bool := s.chan.cqValid

/-- `cq_kind` of an offered request: true for a read request, false for an available query (R49, R113, R114). DESIGN CHOICE:
while `cq_valid` is 0 (no request yet, or the request taken; IDLE, ENC, DEC, WAIT; after reset) R49, R113, R114, R250 and R252
give the port no value, and neither does the model: it answers none (notes/assumptions/21). -/
def cqKind (s : State) : Option Bool := if cqValid s then some (decide (s.seq = .read)) else none

/-- `cq_n` of an offered request: the bytes to read, 0 for a query (R49, R113, R114). DESIGN CHOICE: none while `cq_valid` is 0,
where the spec gives the port no value (notes/assumptions/21). -/
def cqN (s : State) : Option (BitVec 16) :=
  if cqValid s then some (if s.seq = .read then s.rrN else 0#16) else none

/-- `cr_ready`: the block takes every response beat (R49). -/
def crReady (_ : State) : Bool := true

end Sys2Proof.Machine
end

