-- ==== Sys2Proof/Safety.lean ====
section
/-! DEFINITION. The terms claims use: one event as a step, a run of events, when a command has ended (R55), the invariant
of reachable states, the reference algorithm of AWAIT (R172), and the channel traffic of a run (R178). -/

namespace Sys2Proof.Machine

/-- The step that takes event `e` next, from a state whose own schedule comes after it. -/
def stepEvent (e : Event) (s : State) : Host.Outcome State Fault Refusal :=
  step { s with schedule := e :: s.schedule }

/-- The events of a list taken one after another, up to the first fault or refusal. -/
def runEvents : List Event → State → Host.Outcome State Fault Refusal
  | [], s => .next s
  | e :: es, s =>
    match stepEvent e s with
    | .next t => runEvents es t
    | .fault r => .fault r
    | .refused r => .refused r

/-- No command is running (R55). -/
def Quiescent (s : State) : Prop := s.seq = .idle

/-- A host command has ended: the block is quiescent with STATUS.DONE = 1 (R55). -/
def Ended (s : State) : Prop := Quiescent s ∧ s.status.done = true

/-- What holds of every state that a run from reset reaches, and what every step keeps. -/
structure Inv (s : State) : Prop where
  /-- The buffers keep their canonical form. -/
  memWf : Memory.wf s.mem
  /-- STATUS.ERR equals `STATUS.ERR_CODE != 0` (R27). -/
  errIff : s.status.err = decide (s.status.errCode ≠ 0#4)
  /-- Codes 7 to 15 are never produced (R220). -/
  codeProduced : s.status.errCode.toNat ≤ 6
  /-- A code is a completion's (R29). -/
  codeDone : s.status.done = false → s.status.errCode = 0#4
  /-- DONE is 0 while a command runs (R26, R101). -/
  busyNotDone : s.seq ≠ .idle → s.status.done = false
  /-- After PROTO_PAYLOAD_LEN, FRAME_LEN is 0 (R220). -/
  code1 : s.status.errCode = 1#4 → s.frameLen = 0#9
  /-- After PROTO_SYNC, the descriptor is not valid (R220). -/
  code2 : s.status.errCode = 2#4 → s.descInfo.valid = false
  /-- After TIMEOUT, RR_GOT is 0 (R220). -/
  code4 : s.status.errCode = 4#4 → s.rrGot = 0#16
  /-- FRAME_LEN is 0, 2 or 4 to 259 (R31, R116). -/
  frameLenForm : s.frameLen.toNat = 0 ∨ s.frameLen.toNat = 2 ∨ (4 ≤ s.frameLen.toNat ∧ s.frameLen.toNat ≤ Config.frameMax)
  /-- DESC_LEN is the low 30 bits of DESC_RAW (R33). -/
  descLenOf : s.descLen = s.descRaw.extractLsb' 0 30
  /-- MODE is the top 2 bits of DESC_RAW (R34). -/
  modeOf : s.descInfo.mode = s.descRaw.extractLsb' 30 2
  /-- SINGLE marks mode 0 of a valid descriptor (R34, R152). -/
  singleOf : s.descInfo.single = (s.descInfo.valid && decide (s.descInfo.mode = 0#2))
  /-- Nothing of a descriptor stands without VALID (R154). -/
  invalidClear : s.descInfo.valid = false → s.descRaw = 0#32 ∧ s.descInfo.type = 0#8
  /-- A running AWAIT has passed its range check, has not outrun its deadline and has stored nothing (R171, R38). -/
  awaitBounds : awaiting s.seq = true →
    awaitN s ≤ Config.rxBytes ∧ s.rrElapsed.toNat ≤ s.rrTimeout.toNat ∧ s.rrGot = 0#16
  /-- WAIT is entered only before the deadline, after a poll that found too few bytes (R173, R175). -/
  waitBounds : s.seq = .wait → s.rrElapsed.toNat < s.rrTimeout.toNat ∧ s.rrAvail.toNat < awaitN s
  /-- READ is entered only after a poll that found enough bytes (R173). -/
  readBounds : s.seq = .read → awaitN s ≤ s.rrAvail.toNat
  /-- RR_GOT is at most RX_BYTES (R37). -/
  gotBound : s.rrGot.toNat ≤ Config.rxBytes
  /-- A request is offered or outstanding exactly in POLL and READ (R40), and never both (R49). -/
  chanBusy : (s.chan.cqValid || s.chan.outstanding) = decide (s.seq = .poll ∨ s.seq = .read)
  chanOne : (s.chan.cqValid && s.chan.outstanding) = false
  /-- Data beats are counted only for an outstanding read (R114). -/
  beatsOfRead : s.chan.beats ≠ 0 → s.seq = .read ∧ s.chan.outstanding = true

/-- What one AWAIT comes to: its error code, the ticks waited, the last count sampled, and the bytes stored. -/
structure AwaitResult where
  code : BitVec 4
  ticks : Nat
  lastCount : Word
  stored : List Byte
deriving DecidableEq, Repr

/-- The reference algorithm `await(n, T)` of R172, from tick count `t` on, over the channel's answers to its queries and
to its one read; none where the answers run out before it ends. -/
def awaitReference (n T : Nat) (d : List Byte) : Nat → List Word → Option AwaitResult
  | _, [] => none
  | t, c :: cs =>
    if n ≤ c.toNat then
      some { code := if min d.length n < n then 3#4 else 0#4, ticks := t, lastCount := c, stored := d.take n }
    else if T ≤ t then some { code := 4#4, ticks := t, lastCount := c, stored := [] }
    else awaitReference n T d (t + 1) cs

/-- The environment of R172's loop: each query answered, a tick after each. -/
def pollSchedule : List Word → List Event
  | [] => []
  | c :: cs => .poll c :: .tick :: pollSchedule cs

/-- The signal-level events of a read response: a data beat for each byte, whatever stands on `cr_count`. -/
def dataBeats (d : List (Byte × Word)) : List Event := d.map fun x => .crBeat false x.1 x.2

/-- The events that a running AWAIT meets: answers, ticks, and host accesses other than CMD writes. -/
def isAwaitEvent : Event → Bool
  | .poll _ => true
  | .tick => true
  | .read _ => true
  | .hostRead _ => true
  | .hostWrite a _ => decide (wordOffset a ≠ 0x000)
  | _ => false

/-- The event answers a query of the block. -/
def answersQuery (s : State) : Event → Bool
  | .poll _ => decide (s.seq = .poll)
  | _ => false

/-- The event answers a read request of the block. -/
def answersRead (s : State) : Event → Bool
  | .read _ => decide (s.seq = .read)
  | _ => false

/-- How many events of a run answer as `p` says. -/
def countAnswers (p : State → Event → Bool) : List Event → State → Nat
  | [], _ => 0
  | e :: es, s =>
    (if p s e then 1 else 0) + (match stepEvent e s with
      | .next t => countAnswers p es t
      | .fault _ => 0
      | .refused _ => 0)

/-- The device commands' opcode and payload, none for a host command (R120). -/
def deviceOperands : Instr → Option (Byte × Option (List Byte))
  | .encode => none
  | .decodeDesc => none
  | .await => none
  | .rsvd3 => none
  | .getInfo p => some (0x50#8, p)
  | .getHealth p => some (0x52#8, p)
  | .stop p => some (0x25#8, p)
  | .reset p => some (0x40#8, p)
  | .startScan p => some (0x20#8, p)
  | .forceScan p => some (0x21#8, p)
  | .setMotorPwm p => some (0xF0#8, p)

end Sys2Proof.Machine
end

