-- ==== Sys2Proof/Certificates/Slice0/Obligations.lean ====
section
/-! DEFINITION. The statements about the frame codec block, each from a rule of spec/. The model's own choices that a
statement rests on are named in its docstring with their entries in notes/assumptions/. -/

open Sys2Proof Sys2Proof.Machine

/-! Encoding. -/

/-- R103, R110, R111: decoding the words of a well-formed instruction gives it back, whatever its payload. -/
def Obligations.DecodeInvertsEncode : Prop :=
  ∀ i : Instr, i.WellFormed → decode (encode i) = .ok i

/-- R110, R111: the byte strings that decode are exactly the frames of well-formed instructions, so no frame has a second reading
and no other bytes are taken for one. That nothing but a whole frame of the table decodes is the model's choice
(notes/assumptions/9): the block itself parses no frame (R116). -/
def Obligations.DecodedFramesAreEncodings : Prop :=
  ∀ (bytes : List Byte) (i : Instr),
    decode (.frame bytes) = .ok i ↔ i.WellFormed ∧ encode i = .frame bytes

/-- R103: the OP field, CMD[1:0], is decoded completely by the table, and nothing else of the word counts. -/
def Obligations.CommandWordDecodedByOp : Prop :=
  ∀ w : Word,
    (w.extractLsb' 0 2 = 0#2 → decode (.cmdWord w) = .ok .encode) ∧
    (w.extractLsb' 0 2 = 1#2 → decode (.cmdWord w) = .ok .decodeDesc) ∧
    (w.extractLsb' 0 2 = 2#2 → decode (.cmdWord w) = .ok .await) ∧
    (w.extractLsb' 0 2 = 3#2 → decode (.cmdWord w) = .ok .rsvd3)

/-- R103, R110, R111, R120: words written out from the spec's encodings decode to what they stand for. The last
clause, that a frame with a wrong checksum is turned away by name, is the model's choice (notes/assumptions/9). -/
def Obligations.WrittenWordsDecode : Prop :=
  decode (.cmdWord 0x00000000#32) = .ok .encode ∧
  decode (.cmdWord 0x00000004#32) = .ok .encode ∧
  decode (.cmdWord 0x00000001#32) = .ok .decodeDesc ∧
  decode (.cmdWord 0x00000002#32) = .ok .await ∧
  decode (.cmdWord 0xFFFFFFFF#32) = .ok .rsvd3 ∧
  decode (.frame [0xA5#8, 0x50#8]) = .ok (.getInfo none) ∧
  decode (.frame [0xA5#8, 0x50#8, 0x00#8, 0xF5#8]) = .ok (.getInfo (some [])) ∧
  decode (.frame [0xA5#8, 0x25#8]) = .ok (.stop none) ∧
  decode (.frame [0xA5#8, 0xF0#8, 0x02#8, 0x94#8, 0x02#8, 0xC1#8]) = .ok (.setMotorPwm (some [0x94#8, 0x02#8])) ∧
  decode (.frame [0xA5#8, 0xF0#8, 0x02#8, 0x94#8, 0x02#8, 0x41#8]) = .error .badChecksum

/-! The step. -/

/-- R24, R51, R119: where the schedule's first event holds an instruction's words, a step decodes them and runs the
instruction, and takes the event off the schedule; a host write reaches CMD at every address whose bits [10:2] are 0. The
model's choices: that a schedule holds the events (notes/assumptions/5), that a device command is one of them
(notes/assumptions/7), and that words which do not decode are refused by name (notes/assumptions/9). -/
def Obligations.StepRunsDecodedInstruction : Prop :=
  ∀ (s : State) (rest : List Event),
    (∀ (words : Encoding) (i : Instr), s.schedule = fetchEvent words :: rest → decode words = .ok i →
      step s = exec i { s with schedule := rest }) ∧
    (∀ (a : Addr) (d : Word), a.toNat / 4 = 0 → s.schedule = .hostWrite a d :: rest →
      step s = exec (decodeCmd d) { s with schedule := rest }) ∧
    (∀ (words : Encoding) (why : DecodeError), s.schedule = fetchEvent words :: rest → decode words = .error why →
      step s = .refused (.undecodable why))

/-- R237: a clock that asserts `h_wr` and `h_rd` together is refused. So is a device command whose bytes are no frame of the
table, by the model's choice (notes/assumptions/9). Every other step, an empty schedule's included, has a next state. -/
def Obligations.StepRefusesExactly : Prop :=
  ∀ s : State,
    (∀ a d rest, s.schedule = .busConflict a d :: rest → step s = .refused .busConflict) ∧
    (∀ bytes rest why, s.schedule = .deviceCommand bytes :: rest → decodeFrame bytes = .error why →
      step s = .refused (.undecodable why)) ∧
    ((∀ a d rest, s.schedule ≠ .busConflict a d :: rest) →
      (∀ bytes rest why, s.schedule = .deviceCommand bytes :: rest → decodeFrame bytes ≠ .error why) →
      ∃ t, step s = .next t)

/-! Acceptance. -/

/-- R101, R171: a write to CMD on an idle block accepts the command that CMD[1:0] names: DONE, ERR, ERR_CODE and OVR are cleared
and the sequencer starts.
ENCODE and DECODE_DESC and an AWAIT in range leave BUSY at 1; an AWAIT over 1024 and the reserved command complete at once.
Everything not named keeps its value. That AWAIT's first query is offered at once (`chan`) is the model's choice
(notes/assumptions/11). -/
def Obligations.IdleBlockAcceptsHostCommands : Prop :=
  ∀ s : State, s.seq = .idle →
    (∀ (a : Addr) (w : Word), a.toNat / 4 = 0 →
      stepEvent (.hostWrite a w) s =
        if w.extractLsb' 0 2 = 0#2 then exec .encode s
        else if w.extractLsb' 0 2 = 1#2 then exec .decodeDesc s
        else if w.extractLsb' 0 2 = 2#2 then exec .await s
        else exec .rsvd3 s) ∧
    (∃ t, exec .encode s = .next t ∧ busy t = true ∧
      t = { s with status := { done := false, err := false, ovr := false, errCode := 0#4 }, seq := .enc }) ∧
    (∃ t, exec .decodeDesc s = .next t ∧ busy t = true ∧
      t = { s with status := { done := false, err := false, ovr := false, errCode := 0#4 }, seq := .dec }) ∧
    (s.rrN.toNat ≤ 1024 → ∃ t, exec .await s = .next t ∧ busy t = true ∧
      t = { s with
        status := { done := false, err := false, ovr := false, errCode := 0#4 }, seq := .poll,
        rrGot := 0#16, rrElapsed := 0#32, rrAvail := 0#32,
        chan := { cqValid := true, outstanding := false, beats := 0 } }) ∧
    (1024 < s.rrN.toNat → ∃ t, exec .await s = .next t ∧ busy t = false ∧
      t = { s with status := { done := true, err := true, ovr := false, errCode := 6#4 } }) ∧
    (∃ t, exec .rsvd3 s = .next t ∧ busy t = false ∧
      t = { s with status := { done := true, err := true, ovr := false, errCode := 5#4 } })

/-- R104: the reserved command, any word with CMD[1:0] = 3, completes with error 5, STATUS then reads 0x00000506, and no
other state changes. -/
def Obligations.ReservedCommandCompletes : Prop :=
  ∀ (s : State) (w : Word), s.seq = .idle → w.extractLsb' 0 2 = 3#2 →
    ∃ t, stepEvent (.hostWrite 0x000#11 w) s = .next t ∧
      t = { s with status := { done := true, err := true, ovr := false, errCode := 5#4 } } ∧
      readWord t 0x004 = 0x00000506#32

/-- R76, R261: while a command runs, every host write sets OVR and does nothing else, and so does every instruction, device
commands included. -/
def Obligations.BusyWritesOnlySetOverrun : Prop :=
  ∀ s : State, s.seq ≠ .idle →
    (∀ (a : Addr) (d : Word),
      stepEvent (.hostWrite a d) s = .next { s with status := { s.status with ovr := true } }) ∧
    (∀ i : Instr, exec i s = .next { s with status := { s.status with ovr := true } })

/-- R28: what OVR does. Set by a host write while busy; cleared when a host command is accepted, and by reset; unchanged by
every completion and every other step of the sequencer, the channel, the tick source and a host read; 0 after reset. -/
def Obligations.OverrunFlagRule : Prop :=
  (∀ (s t : State) (a : Addr) (d : Word), stepEvent (.hostWrite a d) s = .next t →
    (s.seq ≠ .idle → t = { s with status := { s.status with ovr := true } }) ∧
    (s.seq = .idle → a.toNat / 4 = 0 → t.status.ovr = false) ∧
    (s.seq = .idle → a.toNat / 4 ≠ 0 → t.status.ovr = s.status.ovr)) ∧
  (∀ (s t : State) (e : Event), stepEvent e s = .next t →
    e = .encComplete ∨ e = .decComplete ∨ (∃ c, e = .poll c) ∨ e = .tick ∨ (∃ d, e = .read d) ∨ e = .cqReady ∨
      (∃ l b c, e = .crBeat l b c) ∨ (∃ a, e = .hostRead a) →
    t.status.ovr = s.status.ovr) ∧
  (∀ (s t : State) (bus : BusCycle), stepEvent (.reset bus) s = .next t → t.status.ovr = false) ∧
  State.reset.status.ovr = false

/-! ENCODE. -/

/-- R138: with HAS_PAYLOAD = 0, ENCODE ignores LEN and PLBUF: the frame is `A5 op`, FRAME_LEN is 2 and it succeeds for every
LEN. Every FRAMEBUF byte after the two, and everything else but the draw counter, is unchanged. -/
def Obligations.EncodeWithoutPayload : Prop :=
  ∀ s : State, s.seq = .enc → s.encCtrl.hasPayload = false →
    ∃ t, stepEvent .encComplete s = .next t ∧
      t = { s with
        seq := .idle, status := { s.status with done := true, err := false, errCode := 0#4 },
        frameLen := 2#9, mem := t.mem, draws := t.draws } ∧
      storedByte t.mem 0x200 = some 0xA5#8 ∧
      storedByte t.mem 0x201 = some s.encCtrl.opcode ∧
      ∀ a, a ≠ 0x200 → a ≠ 0x201 → storedByte t.mem a = storedByte s.mem a

/-- R111: with a payload of L = LEN bytes, L at most 255, the frame is `A5 op L p[0] .. p[L-1] cs`, where p
is what PLBUF holds (a byte that nothing has written is some value) and cs is the exclusive or of every byte before it.
FRAME_LEN is L + 4. Every byte outside the frame, and everything else but the draw counter, is unchanged. -/
def Obligations.EncodeWithPayload : Prop :=
  ∀ s : State, s.seq = .enc → s.encCtrl.hasPayload = true → s.encCtrl.len.toNat ≤ 255 →
    ∃ (p : List Byte) (t : State),
      p.length = s.encCtrl.len.toNat ∧
      (∀ i b, i < p.length → storedByte s.mem (0x100 + i) = some b → p[i]? = some b) ∧
      stepEvent .encComplete s = .next t ∧
      t = { s with
        seq := .idle, status := { s.status with done := true, err := false, errCode := 0#4 },
        frameLen := BitVec.ofNat 9 (p.length + 4), mem := t.mem, draws := t.draws } ∧
      storedByte t.mem 0x200 = some 0xA5#8 ∧
      storedByte t.mem 0x201 = some s.encCtrl.opcode ∧
      storedByte t.mem 0x202 = some (BitVec.ofNat 8 p.length) ∧
      (∀ i, i < p.length → storedByte t.mem (0x203 + i) = p[i]?) ∧
      storedByte t.mem (0x203 + p.length) =
        some (0xA5#8 ^^^ s.encCtrl.opcode ^^^ BitVec.ofNat 8 p.length ^^^ xorBytes p) ∧
      ∀ a, a < 0x200 ∨ 0x200 + (p.length + 4) ≤ a → storedByte t.mem a = storedByte s.mem a

/-- R133, R134: ENCODE fails exactly when a payload is supplied and its length exceeds 255, with error 1; then FRAME_LEN reads
0 and no frame byte is written. -/
def Obligations.EncodeFailsExactlyOverLongPayload : Prop :=
  ∀ s : State, s.seq = .enc →
    ∃ t, stepEvent .encComplete s = .next t ∧
      (t.status.errCode ≠ 0#4 ↔ s.encCtrl.hasPayload = true ∧ 255 < s.encCtrl.len.toNat) ∧
      (s.encCtrl.hasPayload = true → 255 < s.encCtrl.len.toNat →
        t = { s with
          seq := .idle, status := { s.status with done := true, err := true, errCode := 1#4 },
          frameLen := 0#9 } ∧
        readWord t 0x00C = 0#32)

/-- R135: a payload that is supplied but empty is framed with a length byte of 0 and a checksum, `A5 op 00 (0xA5 ^ op)`. -/
def Obligations.EncodeEmptyPayload : Prop :=
  ∀ s : State, s.seq = .enc → s.encCtrl.hasPayload = true → s.encCtrl.len = 0#9 →
    ∃ t, stepEvent .encComplete s = .next t ∧ t.status.errCode = 0#4 ∧ t.frameLen = 4#9 ∧
      storedByte t.mem 0x200 = some 0xA5#8 ∧ storedByte t.mem 0x201 = some s.encCtrl.opcode ∧
      storedByte t.mem 0x202 = some 0x00#8 ∧ storedByte t.mem 0x203 = some (0xA5#8 ^^^ s.encCtrl.opcode)

/-- The property the spec derives in R136: the bytes of every payload frame that ENCODE leaves in FRAMEBUF XOR to 0x00, and
the last is the XOR of the others; it holds whatever unwritten payload bytes were drawn. -/
def Obligations.PayloadFrameXorsToZero : Prop :=
  ∀ s t : State, s.seq = .enc → s.encCtrl.hasPayload = true → s.encCtrl.len.toNat ≤ 255 →
    stepEvent .encComplete s = .next t →
    ∀ k, xorBytes (readBytes t.mem 0x200 k t.frameLen.toNat) = 0x00#8 ∧
      readByte t.mem (0x200 + (t.frameLen.toNat - 1)) k =
        xorBytes (readBytes t.mem 0x200 k (t.frameLen.toNat - 1))

/-- The property the spec derives in R137: inverting any one bit of a payload frame makes its XOR nonzero; inverting the same
bit of two bytes, or swapping two bytes, does not. -/
def Obligations.ChecksumSeesOneBitErrors : Prop :=
  ∀ (op : Byte) (len : Nat) (p f : List Byte), frame op true len p = some f →
    (∀ (i : Nat) (b : Byte) (j : Nat), f[i]? = some b → j < 8 → xorBytes (f.set i (b ^^^ 1#8 <<< j)) ≠ 0x00#8) ∧
    (∀ (i i' : Nat) (b b' : Byte) (j : Nat), i ≠ i' → f[i]? = some b → f[i']? = some b' →
      xorBytes ((f.set i (b ^^^ 1#8 <<< j)).set i' (b' ^^^ 1#8 <<< j)) = 0x00#8) ∧
    (∀ (i i' : Nat) (b b' : Byte), i ≠ i' → f[i]? = some b → f[i']? = some b' →
      xorBytes ((f.set i b').set i' b) = 0x00#8)

/-- R132, R140: ENCODE from an idle block to its end. It is accepted, EncComplete ends it with DONE, and its outcome is
the frame of ENC_CTRL's operands, or error 1. OVR is 0, no register but STATUS and FRAME_LEN changes, and no byte outside the
frame. That a payload byte which nothing has written is read once, so that frame and checksum agree on it, is the model's
reading of R89 (notes/assumptions/19). -/
def Obligations.EncodeRunsToItsEnd : Prop :=
  ∀ s : State, s.seq = .idle →
    ∃ (p : List Byte) (t u : State),
      p.length = s.encCtrl.len.toNat ∧
      (∀ i b, i < p.length → storedByte s.mem (0x100 + i) = some b → p[i]? = some b) ∧
      exec .encode s = .next t ∧ stepEvent .encComplete t = .next u ∧ Ended u ∧ u.status.ovr = false ∧
      u = { s with status := u.status, frameLen := u.frameLen, mem := u.mem, draws := u.draws } ∧
      ((s.encCtrl.hasPayload = true ∧ 255 < p.length ∧ u.status.errCode = 1#4 ∧ u.status.err = true ∧
          u.frameLen = 0#9 ∧ u.mem = s.mem) ∨
        ∃ f : List Byte,
          (s.encCtrl.hasPayload = false ∧ f = wireFrame s.encCtrl.opcode none ∨
            s.encCtrl.hasPayload = true ∧ p.length ≤ 255 ∧ f = wireFrame s.encCtrl.opcode (some p)) ∧
          u.status.errCode = 0#4 ∧ u.status.err = false ∧ u.frameLen.toNat = f.length ∧
          (∀ j, j < f.length → storedByte u.mem (0x200 + j) = f[j]?) ∧
          ∀ a, a < 0x200 ∨ 0x200 + f.length ≤ a → storedByte u.mem a = storedByte s.mem a)

/-! DECODE_DESC. -/

/-- R112, R150, R151: DECODE_DESC from an idle block to its end, on the seven bytes b that RXBUF holds (a byte that nothing has
written is some value). DESC_INFO.SINGLE marks mode 0, which R151 says and the spec takes from general knowledge
(notes/assumptions/18). Nothing but STATUS, the three descriptor registers and the draw counter changes. -/
def Obligations.DecodeDescRunsToItsEnd : Prop :=
  ∀ s : State, s.seq = .idle →
    ∃ (b : Nat → Byte) (t u : State),
      (∀ i x, i < 7 → storedByte s.mem (0x400 + i) = some x → b i = x) ∧
      exec .decodeDesc s = .next t ∧ stepEvent .decComplete t = .next u ∧
      (b 0 ≠ 0xA5#8 ∨ b 1 ≠ 0x5A#8 →
        u = { s with
          status := { done := true, err := true, ovr := false, errCode := 2#4 },
          descRaw := 0#32, descLen := 0#30,
          descInfo := { mode := 0#2, single := false, type := 0x00#8, valid := false }, draws := u.draws }) ∧
      (b 0 = 0xA5#8 → b 1 = 0x5A#8 →
        u = { s with
          status := { done := true, err := false, ovr := false, errCode := 0#4 },
          descRaw := b 5 ++ b 4 ++ b 3 ++ b 2,
          descLen := (b 5 ++ b 4 ++ b 3 ++ b 2).extractLsb' 0 30,
          descInfo :=
            { mode := (b 5).extractLsb' 6 2, single := decide ((b 5).extractLsb' 6 2 = 0#2), type := b 6,
              valid := true },
          draws := u.draws })

/-- R153, R154: both sync bytes are checked, either mismatch gives error 2, and after any failure every descriptor register
reads 0. A sync byte that nothing has written is some value. -/
def Obligations.DecodeDescFailureClearsFields : Prop :=
  ∀ s : State, s.seq = .dec →
    ∃ (b0 b1 : Byte) (t : State),
      (∀ x, storedByte s.mem 0x400 = some x → b0 = x) ∧ (∀ x, storedByte s.mem 0x401 = some x → b1 = x) ∧
      stepEvent .decComplete s = .next t ∧
      (t.status.errCode = 2#4 ↔ b0 ≠ 0xA5#8 ∨ b1 ≠ 0x5A#8) ∧
      (t.status.errCode ≠ 0#4 → t.status.errCode = 2#4 ∧ t.status.err = true ∧
        readWord t 0x010 = 0#32 ∧ readWord t 0x014 = 0#32 ∧ readWord t 0x018 = 0#32)

/-- R158: DECODE_DESC changes nothing but STATUS and the descriptor registers (and the draw counter), so neither RXBUF nor the
channel request, and run twice on the same written bytes it gives the same result. -/
def Obligations.DecodeDescTwiceGivesTheSame : Prop :=
  ∀ s : State, s.seq = .idle →
    ∃ t t',
      exec .decodeDesc s = .next t ∧ stepEvent .decComplete t = .next t' ∧
      t' = { s with
        status := t'.status, descRaw := t'.descRaw, descLen := t'.descLen, descInfo := t'.descInfo,
        draws := t'.draws } ∧
      ((∀ i, i < 7 → (storedByte s.mem (0x400 + i)).isSome = true) →
        ∃ u u', exec .decodeDesc t' = .next u ∧ stepEvent .decComplete u = .next u' ∧
          u' = { t' with draws := u'.draws })

/-! AWAIT. -/

/-- R173: a poll answered c samples the count, and goes to the read if at least n bytes are ready, to TIMEOUT if the deadline
has passed, and to the wait otherwise; the comparisons are unsigned. That the read request is offered at once (`chan`) is the
model's choice (notes/assumptions/11). -/
def Obligations.PollTakesItsBranch : Prop :=
  ∀ (s : State) (c : Word), s.seq = .poll →
    (s.rrN.toNat ≤ c.toNat →
      stepEvent (.poll c) s = .next
        { s with rrAvail := c, seq := .read, chan := { cqValid := true, outstanding := false, beats := 0 } }) ∧
    (c.toNat < s.rrN.toNat → s.rrTimeout.toNat ≤ s.rrElapsed.toNat →
      stepEvent (.poll c) s = .next
        { s with
          rrAvail := c, seq := .idle, status := { s.status with done := true, err := true, errCode := 4#4 },
          chan := { cqValid := false, outstanding := false, beats := 0 } }) ∧
    (c.toNat < s.rrN.toNat → s.rrElapsed.toNat < s.rrTimeout.toNat →
      stepEvent (.poll c) s = .next
        { s with rrAvail := c, seq := .wait, chan := { cqValid := false, outstanding := false, beats := 0 } })

/-- R175: a tick in WAIT adds one to RR_ELAPSED and makes the next query due, and does not carry RR_ELAPSED past RR_TIMEOUT; in
every other state it has no effect. That the query is offered at once (`chan`) is the model's choice
(notes/assumptions/11). -/
def Obligations.TickCountsOnlyInWait : Prop :=
  ∀ s : State,
    (s.seq = .wait →
      stepEvent .tick s = .next
        { s with
          rrElapsed := s.rrElapsed + 1#32, seq := .poll,
          chan := { cqValid := true, outstanding := false, beats := 0 } }) ∧
    (s.seq = .wait → Inv s → (s.rrElapsed + 1#32).toNat = s.rrElapsed.toNat + 1 ∧
      (s.rrElapsed + 1#32).toNat ≤ s.rrTimeout.toNat) ∧
    (s.seq ≠ .wait → stepEvent .tick s = .next s)

/-- R176: the read request, while it is offered, carries RR_N; a whole response d stores its first m = min(len d, n) bytes in
RXBUF in order and discards the rest, sets RR_GOT to m, and completes with error 3 if m is below n, else with success. RXBUF
beyond m, and everything not named, is unchanged. -/
def Obligations.ReadStoresWhatArrived : Prop :=
  ∀ (s : State) (d : List Byte), s.seq = .read → s.chan.beats = 0 → s.rrN.toNat ≤ 1024 →
    ∃ t, stepEvent (.read d) s = .next t ∧
      (cqValid s = true → cqN s = some s.rrN ∧ cqKind s = some true) ∧
      t = { s with
        seq := .idle, rrGot := t.rrGot, mem := t.mem, status := t.status,
        chan := { cqValid := false, outstanding := false, beats := 0 } } ∧
      t.rrGot.toNat = min d.length s.rrN.toNat ∧
      (∀ i, i < min d.length s.rrN.toNat → storedByte t.mem (0x400 + i) = d[i]?) ∧
      (∀ a, a < 0x400 ∨ 0x400 + min d.length s.rrN.toNat ≤ a → storedByte t.mem a = storedByte s.mem a) ∧
      (d.length < s.rrN.toNat →
        t.status = { s.status with done := true, err := true, errCode := 3#4 }) ∧
      (s.rrN.toNat ≤ d.length →
        t.status = { s.status with done := true, err := false, errCode := 0#4 })

/-- What the spec derives in R177: AWAIT of 0 bytes makes one query, whatever its answer, and one read request of 0 bytes;
whatever that returns, nothing is stored, RR_GOT is 0, and it succeeds. That the read request is offered directly after the
poll (`cq_valid`) is the model's choice (notes/assumptions/11). -/
def Obligations.AwaitOfZeroBytes : Prop :=
  ∀ (s : State) (c : Word) (d : List Byte), s.seq = .idle → s.rrN = 0#16 →
    ∃ t u v, exec .await s = .next t ∧ stepEvent (.poll c) t = .next u ∧ u.seq = .read ∧ cqValid u = true ∧
      cqKind u = some true ∧ cqN u = some 0#16 ∧ stepEvent (.read d) u = .next v ∧ Ended v ∧
      v.status.errCode = 0#4 ∧ v.rrGot = 0#16 ∧ v.rrAvail = c ∧ ∀ a, storedByte v.mem a = storedByte s.mem a

/-- R174: an accepted AWAIT polls at elapsed tick counts 0, 1, ..., up to T as long as its polls find fewer than n bytes, and
takes a poll that finds n or more, the one at T included; after T + 1 polls and T ticks without one it ends with TIMEOUT,
RR_ELAPSED = T, and RXBUF as it was. -/
def Obligations.DeadlineAfterAllPolls : Prop :=
  ∀ (s : State) (cs : List Word), s.seq = .idle → s.rrN.toNat ≤ 1024 → (∀ c ∈ cs, c.toNat < s.rrN.toNat) →
    ∃ s', exec .await s = .next s' ∧
      (cs.length ≤ s.rrTimeout.toNat →
        ∃ t, runEvents (pollSchedule cs) s' = .next t ∧ t.seq = .poll ∧ t.rrElapsed.toNat = cs.length ∧
          ∀ c : Word, s.rrN.toNat ≤ c.toNat → ∃ u, stepEvent (.poll c) t = .next u ∧ u.seq = .read) ∧
      (cs.length = s.rrTimeout.toNat + 1 →
        ∃ t, runEvents (pollSchedule cs) s' = .next t ∧ Ended t ∧ t.status.errCode = 4#4 ∧
          t.rrElapsed = s.rrTimeout ∧ some t.rrAvail = cs.getLast? ∧ t.rrGot = 0#16 ∧ t.mem = s.mem)

/-- R172: AWAIT on an idle block is the reference algorithm, cut into steps. For every channel that answers the queries cs and
the read d, if the algorithm ends, so does the command, with the algorithm's code, tick count, last count and stored bytes,
and everything else as it was. -/
def Obligations.AwaitIsItsReferenceAlgorithm : Prop :=
  ∀ (s : State) (cs : List Word) (d : List Byte) (r : AwaitResult),
    s.seq = .idle → s.rrN.toNat ≤ 1024 →
    awaitReference s.rrN.toNat s.rrTimeout.toNat d 0 cs = some r →
    ∃ t u, exec .await s = .next t ∧ runEvents (pollSchedule cs ++ [.read d]) t = .next u ∧
      Ended u ∧ u.status.errCode = r.code ∧ u.status.ovr = false ∧
      u.rrElapsed.toNat = r.ticks ∧ u.rrAvail = r.lastCount ∧ u.rrGot.toNat = r.stored.length ∧
      (∀ i, i < r.stored.length → storedByte u.mem (0x400 + i) = r.stored[i]?) ∧
      (∀ a, a < 0x400 ∨ 0x400 + r.stored.length ≤ a → storedByte u.mem a = storedByte s.mem a) ∧
      u = { s with
        status := u.status, rrElapsed := u.rrElapsed, rrAvail := u.rrAvail, rrGot := u.rrGot, mem := u.mem,
        chan := { cqValid := false, outstanding := false, beats := 0 } }

/-- What the spec derives in R178: in any run of whole answers, ticks and host accesses other than CMD writes from acceptance of
an AWAIT to its end, the block has either had p queries answered, 1 <= p <= T + 1, and one read, ending in success or
PROTO_TRUNCATED, or T + 1 queries and no read, ending in TIMEOUT. -/
def Obligations.AwaitChannelTraffic : Prop :=
  ∀ (s t u : State) (es : List Event), s.seq = .idle → s.rrN.toNat ≤ 1024 → exec .await s = .next t →
    (∀ e ∈ es, isAwaitEvent e = true) → runEvents es t = .next u → u.seq = .idle →
    (1 ≤ countAnswers answersQuery es t ∧ countAnswers answersQuery es t ≤ s.rrTimeout.toNat + 1 ∧
      countAnswers answersRead es t = 1 ∧ (u.status.errCode = 0#4 ∨ u.status.errCode = 3#4)) ∨
    (countAnswers answersQuery es t = s.rrTimeout.toNat + 1 ∧ countAnswers answersRead es t = 0 ∧
      u.status.errCode = 4#4)

/-- R114, R115: a read request taken by the channel and answered beat by beat is the single step Read(d): the request, then one
data beat a byte whatever stands on `cr_count`, then the terminator whatever it carries. -/
def Obligations.ReadBeatsRefineRead : Prop :=
  ∀ (s : State) (d : List (Byte × Word)) (b : Byte) (c : Word),
    s.seq = .read → s.chan = { cqValid := true, outstanding := false, beats := 0 } →
    runEvents (.cqReady :: (dataBeats d ++ [.crBeat true b c])) s = stepEvent (.read (d.map Prod.fst)) s

/-- R113, R115: a query taken by the channel and answered by one last beat is the single step Poll(c), and beats before the last
are discarded. -/
def Obligations.QueryBeatsRefinePoll : Prop :=
  ∀ (s : State) (d : List (Byte × Word)) (b : Byte) (c : Word),
    s.seq = .poll → s.chan = { cqValid := true, outstanding := false, beats := 0 } →
    runEvents (.cqReady :: (dataBeats d ++ [.crBeat true b c])) s = stepEvent (.poll c) s

/-- R115: a response beat that arrives with no request taken and unanswered is discarded, and so is a whole response in a state
that awaits none; the latter is how the model reads the rule for whole transactions (notes/assumptions/6). -/
def Obligations.StrayResponsesAreDiscarded : Prop :=
  ∀ s : State,
    (∀ last b c, s.chan.outstanding = false → stepEvent (.crBeat last b c) s = .next s) ∧
    (∀ c, s.seq ≠ .poll → stepEvent (.poll c) s = .next s) ∧
    (∀ d, s.seq ≠ .read → stepEvent (.read d) s = .next s)

/-- R49, R113, R114: in a state of the invariant, an offered request is a query with `cq_n` = 0 in POLL or a read with `cq_n` =
RR_N in READ, and none is offered in any other state; `cq_ready` takes an offer, and until then the offer lasts: no step but
`cq_ready`, a whole answer, or reset ends it or changes what it asks. `cr_ready` is always 1. -/
def Obligations.RequestPortsFollowTheSequencer : Prop :=
  ∀ s : State, Inv s →
    (cqValid s = true →
      s.seq = .poll ∧ cqKind s = some false ∧ cqN s = some 0#16 ∨
        s.seq = .read ∧ cqKind s = some true ∧ cqN s = some s.rrN) ∧
    (s.seq ≠ .poll → s.seq ≠ .read → cqValid s = false ∧ s.chan.outstanding = false) ∧
    (cqValid s = true → ∃ t, stepEvent .cqReady s = .next t ∧ cqValid t = false ∧ t.chan.outstanding = true ∧
      t = { s with chan := t.chan }) ∧
    (∀ (e : Event) (t : State), cqValid s = true → stepEvent e s = .next t →
      e ≠ .cqReady → (∀ c, e ≠ .poll c) → (∀ d, e ≠ .read d) → (∀ bus, e ≠ .reset bus) →
      cqValid t = true ∧ cqKind t = cqKind s ∧ cqN t = cqN s) ∧
    crReady s = true

/-! The host bus. -/

/-- R76: a host write, by the word offset of its address. While busy it sets OVR only; while idle it issues a command at CMD,
stores the writable fields of ENC_CTRL, RR_N and RR_TIMEOUT, stores four bytes in PLBUF or RXBUF, little-endian, and has no
effect at any other offset. -/
def Obligations.HostWriteByOffset : Prop :=
  ∀ (s : State) (a : Addr) (d : Word) (o : Nat), o = a.toNat / 4 * 4 →
    (s.seq ≠ .idle → stepEvent (.hostWrite a d) s = .next { s with status := { s.status with ovr := true } }) ∧
    (s.seq = .idle →
      (o = 0x000 → stepEvent (.hostWrite a d) s = exec (decodeCmd d) s) ∧
      (o = 0x008 → stepEvent (.hostWrite a d) s = .next
        { s with
          encCtrl := { opcode := d.extractLsb' 0 8, len := d.extractLsb' 8 9, hasPayload := d.getLsbD 24 } }) ∧
      (o = 0x01C → stepEvent (.hostWrite a d) s = .next { s with rrN := d.extractLsb' 0 16 }) ∧
      (o = 0x020 → stepEvent (.hostWrite a d) s = .next { s with rrTimeout := d }) ∧
      ((0x100 ≤ o ∧ o < 0x200) ∨ (0x400 ≤ o ∧ o < 0x800) →
        ∃ t, stepEvent (.hostWrite a d) s = .next t ∧ t = { s with mem := t.mem } ∧
          (∀ i, i < 4 → storedByte t.mem (o + i) = some (d.extractLsb' (8 * i) 8)) ∧
          ∀ x, x < o ∨ o + 4 ≤ x → storedByte t.mem x = storedByte s.mem x) ∧
      ((0x200 ≤ o ∧ o < 0x400) ∨
          (o < 0x100 ∧ o ≠ 0x000 ∧ o ≠ 0x008 ∧ o ≠ 0x01C ∧ o ≠ 0x020) →
        stepEvent (.hostWrite a d) s = .next s))

/-- R71: address bits [1:0] are ignored, by writes and reads, and no access faults. -/
def Obligations.AddressLowBitsIgnored : Prop :=
  ∀ (s : State) (a a' : Addr) (d : Word), a.extractLsb' 2 9 = a'.extractLsb' 2 9 →
    stepEvent (.hostWrite a d) s = stepEvent (.hostWrite a' d) s ∧
    stepEvent (.hostRead a) s = stepEvent (.hostRead a') s ∧
    (∃ t, stepEvent (.hostWrite a d) s = .next t) ∧ ∃ t, stepEvent (.hostRead a) s = .next t

/-- R77 on an idle block: what a host read of each offset puts on `h_rdata`; a buffer byte that is stored reads as stored, and
FRAMEBUF window bytes from 259 on read 0. Nothing else changes but the draw counter. -/
def Obligations.HostReadByOffset : Prop :=
  ∀ (s : State) (a : Addr) (o : Nat), o = a.toNat / 4 * 4 → s.seq = .idle →
    ∃ t, stepEvent (.hostRead a) s = .next t ∧ t = { s with hRdata := t.hRdata, draws := t.draws } ∧
      (o = 0x000 → t.hRdata = 0#32) ∧
      (o = 0x004 → t.hRdata =
        0#20 ++ s.status.errCode ++ 0#4 ++ BitVec.ofBool s.status.ovr ++ BitVec.ofBool s.status.err
          ++ BitVec.ofBool s.status.done ++ 0#1) ∧
      (o = 0x008 → t.hRdata =
        0#7 ++ BitVec.ofBool s.encCtrl.hasPayload ++ 0#7 ++ s.encCtrl.len ++ s.encCtrl.opcode) ∧
      (o = 0x00C → t.hRdata = 0#23 ++ s.frameLen) ∧
      (o = 0x010 → t.hRdata = s.descRaw) ∧
      (o = 0x014 → t.hRdata = 0#2 ++ s.descLen) ∧
      (o = 0x018 → t.hRdata =
        BitVec.ofBool s.descInfo.valid ++ 0#7 ++ s.descInfo.type ++ 0#7 ++ BitVec.ofBool s.descInfo.single
          ++ 0#6 ++ s.descInfo.mode) ∧
      (o = 0x01C → t.hRdata = 0#16 ++ s.rrN) ∧
      (o = 0x020 → t.hRdata = s.rrTimeout) ∧
      (o = 0x024 → t.hRdata = 0#16 ++ s.rrGot) ∧
      (o = 0x028 → t.hRdata = s.rrElapsed) ∧
      (o = 0x02C → t.hRdata = s.rrAvail) ∧
      (0x030 ≤ o → o < 0x100 → t.hRdata = 0#32) ∧
      (0x100 ≤ o → ∀ i b, i < 4 →
        storedByte s.mem (o + i) = some b ∧ ((o + i < 0x303) ∨ 0x400 ≤ o + i) ∨
          0x303 ≤ o + i ∧ o + i < 0x400 ∧ b = 0x00#8 →
        t.hRdata.extractLsb' (8 * i) 8 = b)

/-- R54, R83: while a command runs, every register and every stored buffer byte that is no result of it still reads exactly,
RR_ELAPSED and RR_AVAIL during AWAIT included, and STATUS reads BUSY = 1. -/
def Obligations.BusyReadsOfOtherRegistersAreExact : Prop :=
  ∀ (s : State) (a : Addr) (o : Nat) (t : State), o = a.toNat / 4 * 4 → s.seq ≠ .idle →
    stepEvent (.hostRead a) s = .next t →
    t = { s with hRdata := t.hRdata, draws := t.draws } ∧
    (o = 0x000 → t.hRdata = 0#32) ∧
    (o = 0x004 → t.hRdata =
      0#20 ++ s.status.errCode ++ 0#4 ++ BitVec.ofBool s.status.ovr ++ BitVec.ofBool s.status.err
        ++ BitVec.ofBool s.status.done ++ 1#1) ∧
    (o = 0x008 → t.hRdata =
      0#7 ++ BitVec.ofBool s.encCtrl.hasPayload ++ 0#7 ++ s.encCtrl.len ++ s.encCtrl.opcode) ∧
    (o = 0x01C → t.hRdata = 0#16 ++ s.rrN) ∧
    (o = 0x020 → t.hRdata = s.rrTimeout) ∧
    (o = 0x028 → t.hRdata = s.rrElapsed) ∧
    (o = 0x02C → t.hRdata = s.rrAvail) ∧
    (o = 0x00C → s.seq ≠ .enc → t.hRdata = 0#23 ++ s.frameLen) ∧
    (o = 0x010 → s.seq ≠ .dec → t.hRdata = s.descRaw) ∧
    (o = 0x014 → s.seq ≠ .dec → t.hRdata = 0#2 ++ s.descLen) ∧
    (o = 0x018 → s.seq ≠ .dec → t.hRdata =
      BitVec.ofBool s.descInfo.valid ++ 0#7 ++ s.descInfo.type ++ 0#7 ++ BitVec.ofBool s.descInfo.single
        ++ 0#6 ++ s.descInfo.mode) ∧
    (o = 0x024 → s.seq = .enc ∨ s.seq = .dec → t.hRdata = 0#16 ++ s.rrGot) ∧
    (∀ i b, i < 4 → storedByte s.mem (o + i) = some b →
      (0x100 ≤ o + i ∧ o + i < 0x200) ∨ (0x200 ≤ o + i ∧ o + i < 0x303 ∧ s.seq ≠ .enc) ∨
        (0x400 ≤ o + i ∧ (s.seq = .enc ∨ s.seq = .dec)) →
      t.hRdata.extractLsb' (8 * i) 8 = b)

/-- R105: the written value of CMD[31:2], ENC_CTRL[23:17], ENC_CTRL[31:25] and RR_N[31:16] is ignored, in every state: the write
does what it does with those bits 0. They read 0: after a write of d to an idle block, ENC_CTRL reads d without bits [31:25]
and [23:17], RR_N reads d without bits [31:16], and CMD reads 0. -/
def Obligations.ReservedBitsIgnoreWritesAndReadZero : Prop :=
  ∀ (s : State) (d : Word),
    stepEvent (.hostWrite 0x000#11 d) s = stepEvent (.hostWrite 0x000#11 (d &&& 0x00000003#32)) s ∧
    stepEvent (.hostWrite 0x008#11 d) s = stepEvent (.hostWrite 0x008#11 (d &&& 0x0101FFFF#32)) s ∧
    stepEvent (.hostWrite 0x01C#11 d) s = stepEvent (.hostWrite 0x01C#11 (d &&& 0x0000FFFF#32)) s ∧
    (s.seq = .idle →
      (∃ t u, stepEvent (.hostWrite 0x008#11 d) s = .next t ∧ stepEvent (.hostRead 0x008#11) t = .next u ∧
        u.hRdata = d &&& 0x0101FFFF#32) ∧
      (∃ t u, stepEvent (.hostWrite 0x01C#11 d) s = .next t ∧ stepEvent (.hostRead 0x01C#11) t = .next u ∧
        u.hRdata = d &&& 0x0000FFFF#32) ∧
      (∃ t u, stepEvent (.hostWrite 0x000#11 d) s = .next t ∧ stepEvent (.hostRead 0x000#11) t = .next u ∧
        u.hRdata = 0#32))

/-- R73, R83: a word written to PLBUF or RXBUF reads back whole, and the byte at offset o + i is bits [8i+7 : 8i] of it. -/
def Obligations.BufferWordReadsBack : Prop :=
  ∀ (s : State) (a : Addr) (d : Word), s.seq = .idle →
    (0x100 ≤ a.toNat ∧ a.toNat < 0x200) ∨ 0x400 ≤ a.toNat →
    ∃ t u, stepEvent (.hostWrite a d) s = .next t ∧ stepEvent (.hostRead a) t = .next u ∧ u.hRdata = d ∧
      ∀ i, i < 4 → storedByte t.mem (a.toNat / 4 * 4 + i) = some (d.extractLsb' (8 * i) 8)

/-- R79: no host read has a side effect, and a read is idempotent: reading again with nothing in between returns the same value,
where no part of the value is one that the spec leaves unspecified. -/
def Obligations.HostReadsAreIdempotent : Prop :=
  ∀ (s t u : State) (a : Addr), s.seq = .idle →
    (∀ i, i < 4 → isStorage (a.toNat / 4 * 4 + i) = true → (storedByte s.mem (a.toNat / 4 * 4 + i)).isSome = true) →
    stepEvent (.hostRead a) s = .next t → stepEvent (.hostRead a) t = .next u →
    u.hRdata = t.hRdata ∧ t = { s with hRdata := t.hRdata, draws := t.draws }

/-- R119: a device command is the host writes of the pseudo-operation ENCODE, whatever the state: running them one by one on the
bus gives what the instruction gives; so it is with DECODE_DESC, whatever the state, and with AWAIT n, T on an idle block.
That the model takes the writes of a device command as one step is its own choice (notes/assumptions/7). -/
def Obligations.PseudoOperationsAreTheirHostWrites : Prop :=
  (∀ (i : Instr) (op : Byte) (p : Option (List Byte)) (s : State), deviceOperands i = some (op, p) →
    runEvents ((encodeWrites op p).map fun x => .hostWrite x.1 x.2) s = exec i s) ∧
  (∀ s : State, runEvents (decodeDescWrites.map fun x => .hostWrite x.1 x.2) s = exec .decodeDesc s) ∧
  (∀ (n T : Word) (s : State), s.seq = .idle →
    runEvents ((awaitWrites n T).map fun x => .hostWrite x.1 x.2) s =
      exec .await { s with rrN := n.extractLsb' 0 16, rrTimeout := T })

/-! Device commands. -/

/-- R119, R200 to R206: a device command on an idle block writes its operands and starts ENCODE: ENC_CTRL holds the opcode, the
payload's presence and length, PLBUF its bytes, the last word padded with 00; nothing else changes. A payload of 512 or more
bytes asks for LEN = 511 and fills PLBUF, by the model's choice (notes/assumptions/8). -/
def Obligations.DeviceCommandsStartEncode : Prop :=
  ∀ (i : Instr) (op : Byte) (payload : Option (List Byte)) (s : State),
    deviceOperands i = some (op, payload) → s.seq = .idle →
    ∃ t, exec i s = .next t ∧
      t = { s with
        status := { done := false, err := false, ovr := false, errCode := 0#4 }, seq := .enc,
        encCtrl := t.encCtrl, mem := t.mem } ∧
      t.encCtrl.opcode = op ∧
      (payload = none → t.encCtrl.len = 0#9 ∧ t.encCtrl.hasPayload = false ∧ t.mem = s.mem) ∧
      (∀ p, payload = some p →
        t.encCtrl.len.toNat = min p.length 511 ∧ t.encCtrl.hasPayload = true ∧
        (∀ j, j < min p.length 256 → storedByte t.mem (0x100 + j) = p[j]?) ∧
        (∀ j, p.length ≤ j → j < (p.length + 3) / 4 * 4 → j < 256 → storedByte t.mem (0x100 + j) = some 0x00#8) ∧
        ∀ a, a < 0x100 ∨ 0x100 + min ((p.length + 3) / 4 * 4) 256 ≤ a → storedByte t.mem a = storedByte s.mem a)

/-- R200 to R206, R110, R111, R121: every well-formed device command, run on an idle block to its end, leaves in FRAMEBUF exactly
the frame that is its encoding, its length in FRAME_LEN, and reports success. -/
def Obligations.DeviceCommandsBuildTheirFrames : Prop :=
  ∀ (i : Instr) (bytes : List Byte) (s : State), i.WellFormed → encode i = .frame bytes → s.seq = .idle →
    ∃ t u, exec i s = .next t ∧ stepEvent .encComplete t = .next u ∧ Ended u ∧ u.status.errCode = 0#4 ∧
      u.status.err = false ∧ u.frameLen.toNat = bytes.length ∧
      (∀ j, j < bytes.length → storedByte u.mem (0x200 + j) = bytes[j]?) ∧
      u = { s with
        status := u.status, encCtrl := u.encCtrl, frameLen := u.frameLen, mem := u.mem, draws := u.draws } ∧
      ∀ a, a < 0x100 ∨ 0x200 + bytes.length ≤ a → storedByte u.mem a = storedByte s.mem a

/-- R133 for the device commands: a supplied payload longer than 255 bytes ends in error 1 with FRAME_LEN 0 and FRAMEBUF as it
was. From 512 bytes on this is the model's choice (notes/assumptions/8). -/
def Obligations.DeviceCommandsRejectLongPayload : Prop :=
  ∀ (i : Instr) (op : Byte) (p : List Byte) (s : State),
    deviceOperands i = some (op, some p) → 255 < p.length → s.seq = .idle →
    ∃ t u, exec i s = .next t ∧ stepEvent .encComplete t = .next u ∧ Ended u ∧ u.status.errCode = 1#4 ∧
      u.status.err = true ∧ u.frameLen = 0#9 ∧ ∀ a, 0x200 ≤ a → storedByte u.mem a = storedByte s.mem a

/-! Reset. -/

/-- R250: a clock with `rst = 1` puts every register at 0, the sequencer in IDLE and drops the channel request, whatever the state
was; a host write in it has no effect. The model's choices: it leaves the buffers as they were, where R251 also lets them be
unspecified (notes/assumptions/10), and a host read in it returns the next drawn word (notes/assumptions/2). -/
def Obligations.ResetClockClearsRegisters : Prop :=
  ∀ (s : State) (bus : BusCycle),
    ∃ t, stepEvent (.reset bus) s = .next t ∧
      t = { s with
        seq := .idle, status := { done := false, err := false, ovr := false, errCode := 0#4 },
        encCtrl := { opcode := 0x00#8, len := 0#9, hasPayload := false }, frameLen := 0#9,
        descRaw := 0#32, descLen := 0#30,
        descInfo := { mode := 0#2, single := false, type := 0x00#8, valid := false },
        rrN := 0#16, rrTimeout := 0#32, rrGot := 0#16, rrElapsed := 0#32, rrAvail := 0#32,
        chan := { cqValid := false, outstanding := false, beats := 0 },
        hRdata := t.hRdata, draws := t.draws } ∧
      (∀ a, bus = .read a → t.hRdata = Config.freeWord s.draws)

/-- R252: after reset `seq` is IDLE, every host register reads 0x00000000, no request is offered and `cr_ready` is 1, and no buffer
byte has a value. -/
def Obligations.ResetStateReadsZero : Prop :=
  State.reset.seq = .idle ∧ (∀ o, o < 0x100 → readWord State.reset o = 0#32) ∧
  cqValid State.reset = false ∧ crReady State.reset = true ∧ State.reset.descInfo.valid = false ∧
  ∀ a k, readByte State.reset.mem a k = Config.freeByte k

/-! Whole-machine rules. -/

/-- The invariant holds of the state after reset. -/
def Obligations.ResetStateMeetsInvariant : Prop := Inv State.reset

/-- Every step keeps the invariant, from every state that meets it and under every event: R27, R31, R33, R34, R37, R38, R40, R220
and the form of the buffers. -/
def Obligations.EveryStepKeepsInvariant : Prop :=
  ∀ s t : State, Inv s → step s = .next t → Inv t

/-- R45: no operand of a running command changes: while BUSY = 1, no step but reset changes ENC_CTRL, RR_N, RR_TIMEOUT or PLBUF,
and none changes RXBUF while DECODE_DESC runs. -/
def Obligations.OperandsAreStableWhileBusy : Prop :=
  ∀ s t : State, s.seq ≠ .idle → step s = .next t → (∀ bus rest, s.schedule ≠ .reset bus :: rest) →
    t.encCtrl = s.encCtrl ∧ t.rrN = s.rrN ∧ t.rrTimeout = s.rrTimeout ∧
    (∀ a, 0x100 ≤ a → a < 0x200 → storedByte t.mem a = storedByte s.mem a) ∧
    (s.seq = .dec → ∀ a, 0x400 ≤ a → storedByte t.mem a = storedByte s.mem a)

/-- R181, R225, R26: a running command ends only by its own completion, which sets DONE (EncComplete in ENC, DecComplete in DEC, a
poll or its last beat in POLL, a read or its last beat in READ), or by reset, which leaves DONE at 0; no host access ends
it. -/
def Obligations.RunningCommandEndsByCompletionOrReset : Prop :=
  ∀ s t : State, s.seq ≠ .idle → step s = .next t → t.seq = .idle →
    (t.status.done = true ∧ ∃ e rest, s.schedule = e :: rest ∧
      ((s.seq = .enc ∧ e = .encComplete) ∨ (s.seq = .dec ∧ e = .decComplete) ∨
        (s.seq = .poll ∧ ((∃ c, e = .poll c) ∨ ∃ b c, e = .crBeat true b c)) ∨
        (s.seq = .read ∧ ((∃ d, e = .read d) ∨ ∃ b c, e = .crBeat true b c)))) ∨
    (t.status.done = false ∧ ∃ bus rest, s.schedule = .reset bus :: rest)

/-- R223, R227: which step writes each result. FRAME_LEN and FRAMEBUF change only by EncComplete, the descriptor registers only by
DecComplete, RXBUF by a read's response or a host write while idle, RR_GOT by the end of a read, RR_ELAPSED by a tick in WAIT,
RR_AVAIL by a poll's answer, and these last three also by the write to CMD that accepts an AWAIT; reset apart. -/
def Obligations.ResultsAreWrittenByTheirOwnCommand : Prop :=
  ∀ (s t : State) (e : Event), stepEvent e s = .next t → (∀ bus, e ≠ .reset bus) →
    (t.frameLen ≠ s.frameLen ∨ (∃ a, 0x200 ≤ a ∧ a < 0x400 ∧ storedByte t.mem a ≠ storedByte s.mem a) →
      e = .encComplete ∧ s.seq = .enc) ∧
    (t.descRaw ≠ s.descRaw ∨ t.descLen ≠ s.descLen ∨ t.descInfo ≠ s.descInfo → e = .decComplete ∧ s.seq = .dec) ∧
    ((∃ a, 0x400 ≤ a ∧ storedByte t.mem a ≠ storedByte s.mem a) →
      (s.seq = .read ∧ ((∃ d, e = .read d) ∨ ∃ b c, e = .crBeat false b c)) ∨
      (s.seq = .idle ∧ ∃ a d, e = .hostWrite a d ∧ 0x400 ≤ a.toNat)) ∧
    (t.rrGot ≠ s.rrGot →
      (s.seq = .read ∧ ((∃ d, e = .read d) ∨ ∃ b c, e = .crBeat true b c)) ∨
      (s.seq = .idle ∧ ∃ a d, e = .hostWrite a d ∧ a.toNat / 4 = 0 ∧ d.extractLsb' 0 2 = 2#2)) ∧
    (t.rrElapsed ≠ s.rrElapsed →
      (s.seq = .wait ∧ e = .tick) ∨
      (s.seq = .idle ∧ ∃ a d, e = .hostWrite a d ∧ a.toNat / 4 = 0 ∧ d.extractLsb' 0 2 = 2#2)) ∧
    (t.rrAvail ≠ s.rrAvail →
      (s.seq = .poll ∧ ((∃ c, e = .poll c) ∨ ∃ b c, e = .crBeat true b c)) ∨
      (s.seq = .idle ∧ ∃ a d, e = .hostWrite a d ∧ a.toNat / 4 = 0 ∧ d.extractLsb' 0 2 = 2#2))

/-- R227: the record of an error stays: on an idle block, DONE, ERR and ERR_CODE change only by a write to CMD, a device command,
or reset. -/
def Obligations.ErrorRecordStaysUntilNextCommand : Prop :=
  ∀ (s t : State) (e : Event), s.seq = .idle → stepEvent e s = .next t →
    (∀ a d, e = .hostWrite a d → a.toNat / 4 ≠ 0) → (∀ bytes, e ≠ .deviceCommand bytes) → (∀ bus, e ≠ .reset bus) →
    t.status = s.status ∧ t.seq = .idle

/-- R52: a host write and a completion in one clock. Write first: it only sets OVR, and the completion is as without it.
Completion first: the write is taken on the idle block. The model admits both (notes/assumptions/15). -/
def Obligations.WriteAndCompletionInEitherOrder : Prop :=
  ∀ (s u : State) (a : Addr) (d : Word) (e : Event), s.seq ≠ .idle →
    e = .encComplete ∨ e = .decComplete ∨ (∃ c, e = .poll c) ∨ (∃ r, e = .read r) →
    stepEvent e s = .next u → u.seq = .idle →
    runEvents [.hostWrite a d, e] s = .next { u with status := { u.status with ovr := true } } ∧
    runEvents [e, .hostWrite a d] s = stepEvent (.hostWrite a d) u ∧
    u.status.ovr = s.status.ovr

/-- R51: EncComplete and DecComplete are steps of ENC and DEC only: in any other sequencer state such an event changes nothing,
which is how the model reads the table of R51 (notes/assumptions/6). -/
def Obligations.CompletionsOutsideTheirStateChangeNothing : Prop :=
  ∀ s : State,
    (s.seq ≠ .enc → stepEvent .encComplete s = .next s) ∧
    (s.seq ≠ .dec → stepEvent .decComplete s = .next s)
end

