-- ==== Sys2Proof/Laws/Memory.lean ====
section
/-! SUPPORT. What the buffer memory does: a read after a write, and that every write keeps the canonical form. -/

namespace Sys2Proof.Machine

@[simp] theorem storedByte_nil (a : Nat) : storedByte [] a = none := rfl

theorem storedByte_cons (c : Host.Cell) (m : List Host.Cell) (a : Nat) :
    storedByte (c :: m) a = if a = c.1 then some c.2 else storedByte m a := rfl

theorem storedByte_putByte (m : List Host.Cell) (a : Nat) (b : Byte) (x : Nat) :
    storedByte (putByte m a b) x = if x = a then some b else storedByte m x := by
  induction m with
  | nil => rfl
  | cons c m ih =>
    obtain ⟨a', b'⟩ := c
    unfold putByte
    split
    · rfl
    · split
      · subst a'
        simp only [storedByte_cons]
        split <;> rfl
      · simp only [storedByte_cons, ih]
        split
        · next h => rw [if_neg (by omega)]
        · rfl

theorem storedByte_writeByte (m : List Host.Cell) (a : Nat) (b : Byte) (x : Nat) :
    storedByte (writeByte m a b) x = if x = a ∧ isStorage a = true then some b else storedByte m x := by
  unfold writeByte
  split
  · next h => simp [storedByte_putByte, h]
  · next h => simp [h]

/-- A write from `a` on decides exactly the storage bytes it covers. -/
theorem storedByte_writeBytes (m : List Host.Cell) (a : Nat) (bs : List Byte) (x : Nat) :
    storedByte (writeBytes m a bs) x =
      if a ≤ x ∧ x < a + bs.length ∧ isStorage x = true then bs[x - a]? else storedByte m x := by
  induction bs generalizing m a with
  | nil => rw [if_neg (by simp; omega)]; rfl
  | cons b bs ih =>
    rw [writeBytes, ih, storedByte_writeByte, List.length_cons]
    by_cases hx : x = a
    · subst x
      rw [if_neg (by omega)]
      by_cases hs : isStorage a = true
      · rw [if_pos ⟨rfl, hs⟩, if_pos ⟨by omega, by omega, hs⟩]; simp
      · rw [if_neg (by tauto), if_neg (by tauto)]
    · rw [if_neg (by tauto : ¬(x = a ∧ _))]
      by_cases hc : a + 1 ≤ x ∧ x < a + 1 + bs.length ∧ isStorage x = true
      · rw [if_pos hc, if_pos ⟨by omega, by omega, hc.2.2⟩, List.getElem?_cons, if_neg (by omega)]
        congr 1
      · rw [if_neg hc, if_neg (by rintro ⟨h1, h2, h3⟩; exact hc ⟨by omega, by omega, h3⟩)]

theorem writeBytes_append (m : List Host.Cell) (a : Nat) (xs ys : List Byte) :
    writeBytes m a (xs ++ ys) = writeBytes (writeBytes m a xs) (a + xs.length) ys := by
  induction xs generalizing m a with
  | nil => rfl
  | cons x xs ih =>
    rw [List.cons_append, writeBytes, writeBytes, ih, List.length_cons]
    congr 1; omega

theorem mem_putByte {m : List Host.Cell} {a : Nat} {b : Byte} {c : Host.Cell} (h : c ∈ putByte m a b) :
    c = (a, b) ∨ c ∈ m := by
  induction m with
  | nil => simpa [putByte] using h
  | cons d m ih =>
    obtain ⟨a', b'⟩ := d
    unfold putByte at h
    split at h
    · simpa using h
    · split at h <;> simp at h ⊢ <;> tauto

theorem wf_putByte {m : List Host.Cell} {a : Nat} {b : Byte} (ha : isStorage a = true) (h : Memory.wf m) :
    Memory.wf (putByte m a b) := by
  refine ⟨?_, fun c hc => (mem_putByte hc).elim (fun e => e ▸ ha) (h.2 c)⟩
  have hp := h.1
  clear h
  induction m with
  | nil => exact List.pairwise_singleton _ _
  | cons d m ih =>
    obtain ⟨a', b'⟩ := d
    obtain ⟨hd, hm⟩ := List.pairwise_cons.mp hp
    unfold putByte
    split
    · next hlt =>
      refine List.pairwise_cons.mpr ⟨fun c hc => ?_, hp⟩
      rcases List.mem_cons.mp hc with rfl | hc
      · exact hlt
      · exact lt_trans hlt (hd c hc)
    · split
      · next he => subst a'; exact List.pairwise_cons.mpr ⟨hd, hm⟩
      · refine List.pairwise_cons.mpr ⟨fun c hc => ?_, ih hm⟩
        rcases mem_putByte hc with rfl | hc
        · show a' < a; omega
        · exact hd c hc

theorem wf_writeByte {m : List Host.Cell} (a : Nat) (b : Byte) (h : Memory.wf m) :
    Memory.wf (writeByte m a b) := by
  unfold writeByte
  split
  · next hs => exact wf_putByte hs h
  · exact h

theorem wf_writeBytes {m : List Host.Cell} (a : Nat) (bs : List Byte) (h : Memory.wf m) :
    Memory.wf (writeBytes m a bs) := by
  induction bs generalizing m a with
  | nil => exact h
  | cons b bs ih => exact ih _ (wf_writeByte a b h)

theorem wf_nil : Memory.wf [] := ⟨List.Pairwise.nil, fun _ h => nomatch h⟩

theorem readByte_stored {m : List Host.Cell} {a : Nat} {b : Byte} (h : storedByte m a = some b) (k : Nat) :
    readByte m a k = b := by simp [readByte, h]

theorem readByte_unwritten {m : List Host.Cell} {a : Nat} (h : storedByte m a = none) (k : Nat) :
    readByte m a k = Config.freeByte k := by simp [readByte, h]

@[simp] theorem length_readBytes (m : List Host.Cell) (a k n : Nat) : (readBytes m a k n).length = n := by
  simp [readBytes]

theorem getElem?_readBytes {m : List Host.Cell} {a k n i : Nat} (h : i < n) :
    (readBytes m a k n)[i]? = some (readByte m (a + i) (k + i)) := by simp [readBytes, h]

/-- Which window bytes are storage, in numbers (R23). -/
theorem isStorage_iff (a : Nat) : isStorage a = true ↔ (0x100 ≤ a ∧ a < 0x303) ∨ (0x400 ≤ a ∧ a < 0x800) := by
  simp only [isStorage, Bool.or_eq_true, decide_eq_true_eq]; exact Iff.rfl

end Sys2Proof.Machine
end

