-- ==== Sys2Proof/Laws/State.lean ====
section
/-! SUPPORT. One lemma per field of State for each shared update, so that no proof unfolds a record update. -/

namespace Sys2Proof.Machine

@[simp] theorem complete_seq (e : BitVec 4) (s : State) : (complete e s).seq = .idle := rfl
@[simp] theorem complete_status (e : BitVec 4) (s : State) : (complete e s).status = s.status.completed e := rfl
@[simp] theorem complete_encCtrl (e : BitVec 4) (s : State) : (complete e s).encCtrl = s.encCtrl := rfl
@[simp] theorem complete_frameLen (e : BitVec 4) (s : State) : (complete e s).frameLen = s.frameLen := rfl
@[simp] theorem complete_descRaw (e : BitVec 4) (s : State) : (complete e s).descRaw = s.descRaw := rfl
@[simp] theorem complete_descLen (e : BitVec 4) (s : State) : (complete e s).descLen = s.descLen := rfl
@[simp] theorem complete_descInfo (e : BitVec 4) (s : State) : (complete e s).descInfo = s.descInfo := rfl
@[simp] theorem complete_rrN (e : BitVec 4) (s : State) : (complete e s).rrN = s.rrN := rfl
@[simp] theorem complete_rrTimeout (e : BitVec 4) (s : State) : (complete e s).rrTimeout = s.rrTimeout := rfl
@[simp] theorem complete_rrGot (e : BitVec 4) (s : State) : (complete e s).rrGot = s.rrGot := rfl
@[simp] theorem complete_rrElapsed (e : BitVec 4) (s : State) : (complete e s).rrElapsed = s.rrElapsed := rfl
@[simp] theorem complete_rrAvail (e : BitVec 4) (s : State) : (complete e s).rrAvail = s.rrAvail := rfl
@[simp] theorem complete_mem (e : BitVec 4) (s : State) : (complete e s).mem = s.mem := rfl
@[simp] theorem complete_chan (e : BitVec 4) (s : State) : (complete e s).chan = s.chan := rfl
@[simp] theorem complete_hRdata (e : BitVec 4) (s : State) : (complete e s).hRdata = s.hRdata := rfl
@[simp] theorem complete_draws (e : BitVec 4) (s : State) : (complete e s).draws = s.draws := rfl
@[simp] theorem complete_schedule (e : BitVec 4) (s : State) : (complete e s).schedule = s.schedule := rfl

@[simp] theorem clearStatus_seq (s : State) : (clearStatus s).seq = s.seq := rfl
@[simp] theorem clearStatus_status (s : State) : (clearStatus s).status = Status.accepted := rfl
@[simp] theorem clearStatus_encCtrl (s : State) : (clearStatus s).encCtrl = s.encCtrl := rfl
@[simp] theorem clearStatus_frameLen (s : State) : (clearStatus s).frameLen = s.frameLen := rfl
@[simp] theorem clearStatus_descRaw (s : State) : (clearStatus s).descRaw = s.descRaw := rfl
@[simp] theorem clearStatus_descLen (s : State) : (clearStatus s).descLen = s.descLen := rfl
@[simp] theorem clearStatus_descInfo (s : State) : (clearStatus s).descInfo = s.descInfo := rfl
@[simp] theorem clearStatus_rrN (s : State) : (clearStatus s).rrN = s.rrN := rfl
@[simp] theorem clearStatus_rrTimeout (s : State) : (clearStatus s).rrTimeout = s.rrTimeout := rfl
@[simp] theorem clearStatus_rrGot (s : State) : (clearStatus s).rrGot = s.rrGot := rfl
@[simp] theorem clearStatus_rrElapsed (s : State) : (clearStatus s).rrElapsed = s.rrElapsed := rfl
@[simp] theorem clearStatus_rrAvail (s : State) : (clearStatus s).rrAvail = s.rrAvail := rfl
@[simp] theorem clearStatus_mem (s : State) : (clearStatus s).mem = s.mem := rfl
@[simp] theorem clearStatus_chan (s : State) : (clearStatus s).chan = s.chan := rfl
@[simp] theorem clearStatus_hRdata (s : State) : (clearStatus s).hRdata = s.hRdata := rfl
@[simp] theorem clearStatus_draws (s : State) : (clearStatus s).draws = s.draws := rfl
@[simp] theorem clearStatus_schedule (s : State) : (clearStatus s).schedule = s.schedule := rfl

@[simp] theorem acceptEncode_seq (s : State) : (acceptEncode s).seq = .enc := rfl
@[simp] theorem acceptEncode_status (s : State) : (acceptEncode s).status = Status.accepted := rfl
@[simp] theorem acceptEncode_encCtrl (s : State) : (acceptEncode s).encCtrl = s.encCtrl := rfl
@[simp] theorem acceptEncode_frameLen (s : State) : (acceptEncode s).frameLen = s.frameLen := rfl
@[simp] theorem acceptEncode_descRaw (s : State) : (acceptEncode s).descRaw = s.descRaw := rfl
@[simp] theorem acceptEncode_descLen (s : State) : (acceptEncode s).descLen = s.descLen := rfl
@[simp] theorem acceptEncode_descInfo (s : State) : (acceptEncode s).descInfo = s.descInfo := rfl
@[simp] theorem acceptEncode_rrN (s : State) : (acceptEncode s).rrN = s.rrN := rfl
@[simp] theorem acceptEncode_rrTimeout (s : State) : (acceptEncode s).rrTimeout = s.rrTimeout := rfl
@[simp] theorem acceptEncode_rrGot (s : State) : (acceptEncode s).rrGot = s.rrGot := rfl
@[simp] theorem acceptEncode_rrElapsed (s : State) : (acceptEncode s).rrElapsed = s.rrElapsed := rfl
@[simp] theorem acceptEncode_rrAvail (s : State) : (acceptEncode s).rrAvail = s.rrAvail := rfl
@[simp] theorem acceptEncode_mem (s : State) : (acceptEncode s).mem = s.mem := rfl
@[simp] theorem acceptEncode_chan (s : State) : (acceptEncode s).chan = s.chan := rfl
@[simp] theorem acceptEncode_hRdata (s : State) : (acceptEncode s).hRdata = s.hRdata := rfl
@[simp] theorem acceptEncode_draws (s : State) : (acceptEncode s).draws = s.draws := rfl
@[simp] theorem acceptEncode_schedule (s : State) : (acceptEncode s).schedule = s.schedule := rfl

@[simp] theorem acceptDecodeDesc_seq (s : State) : (acceptDecodeDesc s).seq = .dec := rfl
@[simp] theorem acceptDecodeDesc_status (s : State) : (acceptDecodeDesc s).status = Status.accepted := rfl
@[simp] theorem acceptDecodeDesc_encCtrl (s : State) : (acceptDecodeDesc s).encCtrl = s.encCtrl := rfl
@[simp] theorem acceptDecodeDesc_frameLen (s : State) : (acceptDecodeDesc s).frameLen = s.frameLen := rfl
@[simp] theorem acceptDecodeDesc_descRaw (s : State) : (acceptDecodeDesc s).descRaw = s.descRaw := rfl
@[simp] theorem acceptDecodeDesc_descLen (s : State) : (acceptDecodeDesc s).descLen = s.descLen := rfl
@[simp] theorem acceptDecodeDesc_descInfo (s : State) : (acceptDecodeDesc s).descInfo = s.descInfo := rfl
@[simp] theorem acceptDecodeDesc_rrN (s : State) : (acceptDecodeDesc s).rrN = s.rrN := rfl
@[simp] theorem acceptDecodeDesc_rrTimeout (s : State) : (acceptDecodeDesc s).rrTimeout = s.rrTimeout := rfl
@[simp] theorem acceptDecodeDesc_rrGot (s : State) : (acceptDecodeDesc s).rrGot = s.rrGot := rfl
@[simp] theorem acceptDecodeDesc_rrElapsed (s : State) : (acceptDecodeDesc s).rrElapsed = s.rrElapsed := rfl
@[simp] theorem acceptDecodeDesc_rrAvail (s : State) : (acceptDecodeDesc s).rrAvail = s.rrAvail := rfl
@[simp] theorem acceptDecodeDesc_mem (s : State) : (acceptDecodeDesc s).mem = s.mem := rfl
@[simp] theorem acceptDecodeDesc_chan (s : State) : (acceptDecodeDesc s).chan = s.chan := rfl
@[simp] theorem acceptDecodeDesc_hRdata (s : State) : (acceptDecodeDesc s).hRdata = s.hRdata := rfl
@[simp] theorem acceptDecodeDesc_draws (s : State) : (acceptDecodeDesc s).draws = s.draws := rfl
@[simp] theorem acceptDecodeDesc_schedule (s : State) : (acceptDecodeDesc s).schedule = s.schedule := rfl

@[simp] theorem acceptRsvd3_seq (s : State) : (acceptRsvd3 s).seq = .idle := rfl
@[simp] theorem acceptRsvd3_status (s : State) : (acceptRsvd3 s).status = Status.accepted.completed 5#4 := rfl
@[simp] theorem acceptRsvd3_encCtrl (s : State) : (acceptRsvd3 s).encCtrl = s.encCtrl := rfl
@[simp] theorem acceptRsvd3_frameLen (s : State) : (acceptRsvd3 s).frameLen = s.frameLen := rfl
@[simp] theorem acceptRsvd3_descRaw (s : State) : (acceptRsvd3 s).descRaw = s.descRaw := rfl
@[simp] theorem acceptRsvd3_descLen (s : State) : (acceptRsvd3 s).descLen = s.descLen := rfl
@[simp] theorem acceptRsvd3_descInfo (s : State) : (acceptRsvd3 s).descInfo = s.descInfo := rfl
@[simp] theorem acceptRsvd3_rrN (s : State) : (acceptRsvd3 s).rrN = s.rrN := rfl
@[simp] theorem acceptRsvd3_rrTimeout (s : State) : (acceptRsvd3 s).rrTimeout = s.rrTimeout := rfl
@[simp] theorem acceptRsvd3_rrGot (s : State) : (acceptRsvd3 s).rrGot = s.rrGot := rfl
@[simp] theorem acceptRsvd3_rrElapsed (s : State) : (acceptRsvd3 s).rrElapsed = s.rrElapsed := rfl
@[simp] theorem acceptRsvd3_rrAvail (s : State) : (acceptRsvd3 s).rrAvail = s.rrAvail := rfl
@[simp] theorem acceptRsvd3_mem (s : State) : (acceptRsvd3 s).mem = s.mem := rfl
@[simp] theorem acceptRsvd3_chan (s : State) : (acceptRsvd3 s).chan = s.chan := rfl
@[simp] theorem acceptRsvd3_hRdata (s : State) : (acceptRsvd3 s).hRdata = s.hRdata := rfl
@[simp] theorem acceptRsvd3_draws (s : State) : (acceptRsvd3 s).draws = s.draws := rfl
@[simp] theorem acceptRsvd3_schedule (s : State) : (acceptRsvd3 s).schedule = s.schedule := rfl

@[simp] theorem popEvent_seq (s : State) : (popEvent s).seq = s.seq := rfl
@[simp] theorem popEvent_status (s : State) : (popEvent s).status = s.status := rfl
@[simp] theorem popEvent_encCtrl (s : State) : (popEvent s).encCtrl = s.encCtrl := rfl
@[simp] theorem popEvent_frameLen (s : State) : (popEvent s).frameLen = s.frameLen := rfl
@[simp] theorem popEvent_descRaw (s : State) : (popEvent s).descRaw = s.descRaw := rfl
@[simp] theorem popEvent_descLen (s : State) : (popEvent s).descLen = s.descLen := rfl
@[simp] theorem popEvent_descInfo (s : State) : (popEvent s).descInfo = s.descInfo := rfl
@[simp] theorem popEvent_rrN (s : State) : (popEvent s).rrN = s.rrN := rfl
@[simp] theorem popEvent_rrTimeout (s : State) : (popEvent s).rrTimeout = s.rrTimeout := rfl
@[simp] theorem popEvent_rrGot (s : State) : (popEvent s).rrGot = s.rrGot := rfl
@[simp] theorem popEvent_rrElapsed (s : State) : (popEvent s).rrElapsed = s.rrElapsed := rfl
@[simp] theorem popEvent_rrAvail (s : State) : (popEvent s).rrAvail = s.rrAvail := rfl
@[simp] theorem popEvent_mem (s : State) : (popEvent s).mem = s.mem := rfl
@[simp] theorem popEvent_chan (s : State) : (popEvent s).chan = s.chan := rfl
@[simp] theorem popEvent_hRdata (s : State) : (popEvent s).hRdata = s.hRdata := rfl
@[simp] theorem popEvent_draws (s : State) : (popEvent s).draws = s.draws := rfl
@[simp] theorem popEvent_schedule (s : State) : (popEvent s).schedule = s.schedule.tail := rfl

@[simp] theorem hostRead_seq (a : Addr) (s : State) : (hostRead a s).seq = s.seq := rfl
@[simp] theorem hostRead_status (a : Addr) (s : State) : (hostRead a s).status = s.status := rfl
@[simp] theorem hostRead_encCtrl (a : Addr) (s : State) : (hostRead a s).encCtrl = s.encCtrl := rfl
@[simp] theorem hostRead_frameLen (a : Addr) (s : State) : (hostRead a s).frameLen = s.frameLen := rfl
@[simp] theorem hostRead_descRaw (a : Addr) (s : State) : (hostRead a s).descRaw = s.descRaw := rfl
@[simp] theorem hostRead_descLen (a : Addr) (s : State) : (hostRead a s).descLen = s.descLen := rfl
@[simp] theorem hostRead_descInfo (a : Addr) (s : State) : (hostRead a s).descInfo = s.descInfo := rfl
@[simp] theorem hostRead_rrN (a : Addr) (s : State) : (hostRead a s).rrN = s.rrN := rfl
@[simp] theorem hostRead_rrTimeout (a : Addr) (s : State) : (hostRead a s).rrTimeout = s.rrTimeout := rfl
@[simp] theorem hostRead_rrGot (a : Addr) (s : State) : (hostRead a s).rrGot = s.rrGot := rfl
@[simp] theorem hostRead_rrElapsed (a : Addr) (s : State) : (hostRead a s).rrElapsed = s.rrElapsed := rfl
@[simp] theorem hostRead_rrAvail (a : Addr) (s : State) : (hostRead a s).rrAvail = s.rrAvail := rfl
@[simp] theorem hostRead_mem (a : Addr) (s : State) : (hostRead a s).mem = s.mem := rfl
@[simp] theorem hostRead_chan (a : Addr) (s : State) : (hostRead a s).chan = s.chan := rfl
@[simp] theorem hostRead_hRdata (a : Addr) (s : State) : (hostRead a s).hRdata = readWord s (wordOffset a) := rfl
@[simp] theorem hostRead_draws (a : Addr) (s : State) : (hostRead a s).draws = s.draws + 4 := rfl
@[simp] theorem hostRead_schedule (a : Addr) (s : State) : (hostRead a s).schedule = s.schedule := rfl

@[simp] theorem resetRegisters_seq (s : State) : (resetRegisters s).seq = State.reset.seq := rfl
@[simp] theorem resetRegisters_status (s : State) : (resetRegisters s).status = State.reset.status := rfl
@[simp] theorem resetRegisters_encCtrl (s : State) : (resetRegisters s).encCtrl = State.reset.encCtrl := rfl
@[simp] theorem resetRegisters_frameLen (s : State) : (resetRegisters s).frameLen = State.reset.frameLen := rfl
@[simp] theorem resetRegisters_descRaw (s : State) : (resetRegisters s).descRaw = State.reset.descRaw := rfl
@[simp] theorem resetRegisters_descLen (s : State) : (resetRegisters s).descLen = State.reset.descLen := rfl
@[simp] theorem resetRegisters_descInfo (s : State) : (resetRegisters s).descInfo = State.reset.descInfo := rfl
@[simp] theorem resetRegisters_rrN (s : State) : (resetRegisters s).rrN = State.reset.rrN := rfl
@[simp] theorem resetRegisters_rrTimeout (s : State) : (resetRegisters s).rrTimeout = State.reset.rrTimeout := rfl
@[simp] theorem resetRegisters_rrGot (s : State) : (resetRegisters s).rrGot = State.reset.rrGot := rfl
@[simp] theorem resetRegisters_rrElapsed (s : State) : (resetRegisters s).rrElapsed = State.reset.rrElapsed := rfl
@[simp] theorem resetRegisters_rrAvail (s : State) : (resetRegisters s).rrAvail = State.reset.rrAvail := rfl
@[simp] theorem resetRegisters_mem (s : State) : (resetRegisters s).mem = s.mem := rfl
@[simp] theorem resetRegisters_chan (s : State) : (resetRegisters s).chan = State.reset.chan := rfl
@[simp] theorem resetRegisters_hRdata (s : State) : (resetRegisters s).hRdata = s.hRdata := rfl
@[simp] theorem resetRegisters_draws (s : State) : (resetRegisters s).draws = s.draws := rfl
@[simp] theorem resetRegisters_schedule (s : State) : (resetRegisters s).schedule = s.schedule := rfl

@[simp] theorem Status.completed_done (st : Status) (e : BitVec 4) : (st.completed e).done = true := rfl
@[simp] theorem Status.completed_err (st : Status) (e : BitVec 4) : (st.completed e).err = decide (e ≠ 0#4) := rfl
@[simp] theorem Status.completed_ovr (st : Status) (e : BitVec 4) : (st.completed e).ovr = st.ovr := rfl
@[simp] theorem Status.completed_errCode (st : Status) (e : BitVec 4) : (st.completed e).errCode = e := rfl
@[simp] theorem Status.overrun_done (st : Status) : st.overrun.done = st.done := rfl
@[simp] theorem Status.overrun_err (st : Status) : st.overrun.err = st.err := rfl
@[simp] theorem Status.overrun_ovr (st : Status) : st.overrun.ovr = true := rfl
@[simp] theorem Status.overrun_errCode (st : Status) : st.overrun.errCode = st.errCode := rfl
@[simp] theorem Status.accepted_done : Status.accepted.done = false := rfl
@[simp] theorem Status.accepted_err : Status.accepted.err = false := rfl
@[simp] theorem Status.accepted_ovr : Status.accepted.ovr = false := rfl
@[simp] theorem Status.accepted_errCode : Status.accepted.errCode = 0#4 := rfl

end Sys2Proof.Machine
end

