-- ==== Sys2Proof/Laws/Ops.lean ====
section
/-! SUPPORT. What each shared operation can do, said once: the busy guard, the exclusive or of a byte sequence, words and
their bytes, the bus writes, and acceptance. -/

namespace Sys2Proof

@[simp] theorem xorBytes_nil : xorBytes [] = 0#8 := rfl

theorem foldl_xor (s : List Byte) (x : Byte) : s.foldl (· ^^^ ·) x = x ^^^ s.foldl (· ^^^ ·) 0#8 := by
  induction s generalizing x with
  | nil => simp
  | cons b s ih => rw [List.foldl_cons, List.foldl_cons, ih, ih (0#8 ^^^ b), BitVec.zero_xor, BitVec.xor_assoc]

@[simp] theorem xorBytes_cons (b : Byte) (s : List Byte) : xorBytes (b :: s) = b ^^^ xorBytes s := by
  unfold xorBytes
  rw [List.foldl_cons, foldl_xor, BitVec.zero_xor]

@[simp] theorem xorBytes_append (s t : List Byte) : xorBytes (s ++ t) = xorBytes s ^^^ xorBytes t := by
  induction s with
  | nil => simp
  | cons b s ih => rw [List.cons_append, xorBytes_cons, ih, xorBytes_cons, BitVec.xor_assoc]

namespace Machine

theorem busy_iff (s : State) : busy s = true ↔ s.seq ≠ .idle := by simp [busy]

theorem whenIdle_idle {s : State} (h : s.seq = .idle) (f : State → State) : whenIdle f s = f s := by
  simp [whenIdle, busy, h]

theorem whenIdle_busy {s : State} (h : s.seq ≠ .idle) (f : State → State) :
    whenIdle f s = { s with status := s.status.overrun } := by
  simp [whenIdle, busy, h]

/-- The guard has two outcomes and no third. -/
theorem whenIdle_cases (f : State → State) (s : State) :
    (s.seq = .idle ∧ whenIdle f s = f s) ∨
      (s.seq ≠ .idle ∧ whenIdle f s = { s with status := s.status.overrun }) := by
  by_cases h : s.seq = .idle
  · exact .inl ⟨h, whenIdle_idle h f⟩
  · exact .inr ⟨h, whenIdle_busy h f⟩

@[simp] theorem Status.overrun_overrun (st : Status) : st.overrun.overrun = st.overrun := rfl

@[simp] theorem awaiting_poll : awaiting .poll = true := rfl
@[simp] theorem awaiting_wait : awaiting .wait = true := rfl
@[simp] theorem awaiting_read : awaiting .read = true := rfl
@[simp] theorem awaiting_idle : awaiting .idle = false := rfl
@[simp] theorem awaiting_enc : awaiting .enc = false := rfl
@[simp] theorem awaiting_dec : awaiting .dec = false := rfl

/-- A word is its four bytes (R73). -/
theorem leWord_bytes (w : Word) :
    leWord (w.extractLsb' 0 8) (w.extractLsb' 8 8) (w.extractLsb' 16 8) (w.extractLsb' 24 8) = w := by
  unfold leWord
  ext i hi
  simp only [BitVec.getElem_or, BitVec.getElem_shiftLeft, BitVec.getElem_setWidth, BitVec.getLsbD_extractLsb']
  interval_cases i <;> simp

/-- AWAIT is accepted with its range check passed, or refused with error 6 (R171). -/
theorem acceptAwait_ok {s : State} (h : awaitN s ≤ Config.rxBytes) :
    acceptAwait s =
      { s with
        status := Status.accepted, rrGot := 0#16, rrElapsed := 0#32, rrAvail := 0#32, seq := .poll,
        chan := Channel.offered } := by
  unfold acceptAwait; rw [if_neg (by omega)]; rfl

theorem acceptAwait_range {s : State} (h : Config.rxBytes < awaitN s) :
    acceptAwait s = { s with status := Status.accepted.completed 6#4, seq := .idle } := by
  unfold acceptAwait; rw [if_pos h]; rfl

end Machine
end Sys2Proof
end

