-- ==== Sys2Proof/Laws/Step.lean ====
section
/-! SUPPORT. What one step and one event do, said once. -/

namespace Sys2Proof.Machine

/-- A step with an empty schedule leaves the state as it is. -/
theorem step_nil {s : State} (h : s.schedule = []) : step s = .next s := by
  unfold step; rw [h]

/-- A step whose first event has a step of its own takes it. -/
theorem step_act {s : State} {e : Event} {rest : List Event} {act : State → Host.Outcome State Fault Refusal}
    (h : s.schedule = e :: rest) (ha : eventAction e = .inr act) : step s = act (popEvent s) := by
  unfold step; rw [h]; simp only [ha]

/-- A step whose first event holds an instruction's words runs what they decode to. -/
theorem step_instr {s : State} {e : Event} {rest : List Event} {words : Encoding} {i : Instr}
    (h : s.schedule = e :: rest) (ha : eventAction e = .inl words) (hd : decode words = .ok i) :
    step s = exec i (popEvent s) := by
  unfold step; rw [h]; simp only [ha, hd]

/-- A step whose first event holds words that do not decode is refused by name. -/
theorem step_undecodable {s : State} {e : Event} {rest : List Event} {words : Encoding} {why : DecodeError}
    (h : s.schedule = e :: rest) (ha : eventAction e = .inl words) (hd : decode words = .error why) :
    step s = .refused (.undecodable why) := by
  unfold step; rw [h]; simp only [ha, hd]

/-- Any step is the empty schedule's, or is `stepEvent` of the first event. -/
theorem step_eq_stepEvent {s : State} {e : Event} {rest : List Event} (h : s.schedule = e :: rest) :
    step s = stepEvent e (popEvent s) := by
  have : ({ popEvent s with schedule := e :: (popEvent s).schedule } : State) = s := by
    cases s; simp only [popEvent] at h ⊢; simp [h]
  rw [stepEvent, this]

theorem stepEvent_act {s : State} {e : Event} {act : State → Host.Outcome State Fault Refusal}
    (ha : eventAction e = .inr act) : stepEvent e s = act s :=
  step_act (s := { s with schedule := e :: s.schedule }) rfl ha

theorem stepEvent_instr {s : State} {e : Event} {words : Encoding} {i : Instr}
    (ha : eventAction e = .inl words) (hd : decode words = .ok i) : stepEvent e s = exec i s :=
  step_instr (s := { s with schedule := e :: s.schedule }) rfl ha hd

theorem stepEvent_undecodable {s : State} {e : Event} {words : Encoding} {why : DecodeError}
    (ha : eventAction e = .inl words) (hd : decode words = .error why) :
    stepEvent e s = .refused (.undecodable why) :=
  step_undecodable (s := { s with schedule := e :: s.schedule }) rfl ha hd

section Events
variable (s : State)

/-- The meaning of a command word is the acceptance that a write of it to CMD calls (R76, R101). -/
theorem exec_decodeCmd (d : Word) :
    exec (decodeCmd d) s = .next (whenIdle (accept (d.extractLsb' 0 2)) s) := by
  unfold decodeCmd accept
  split
  · rfl
  · split
    · rfl
    · split <;> rfl

/-- Every host write, to CMD or elsewhere, is the bus write of R76. -/
theorem stepEvent_hostWrite (a : Addr) (d : Word) :
    stepEvent (.hostWrite a d) s = .next (hostWrite a d s) := by
  by_cases h : wordOffset a = 0
  · have ha : eventAction (.hostWrite a d) = .inl (.cmdWord d) := by simp [eventAction, h]
    rw [stepEvent_instr ha rfl, exec_decodeCmd, hostWrite, h]; rfl
  · exact stepEvent_act (by simp [eventAction, h] : eventAction (.hostWrite a d) = .inr (stepping (hostWrite a d)))

@[simp] theorem stepEvent_hostRead (a : Addr) : stepEvent (.hostRead a) s = .next (hostRead a s) := rfl
@[simp] theorem stepEvent_encComplete : stepEvent .encComplete s = .next (encComplete s) := rfl
@[simp] theorem stepEvent_decComplete : stepEvent .decComplete s = .next (decComplete s) := rfl
@[simp] theorem stepEvent_poll (c : Word) : stepEvent (.poll c) s = .next (pollStep c s) := rfl
@[simp] theorem stepEvent_tick : stepEvent .tick s = .next (tickStep s) := rfl
@[simp] theorem stepEvent_read (d : List Byte) : stepEvent (.read d) s = .next (readStep d s) := rfl
@[simp] theorem stepEvent_cqReady : stepEvent .cqReady s = .next (takeRequest s) := rfl
@[simp] theorem stepEvent_crBeat (last : Bool) (b : Byte) (c : Word) :
    stepEvent (.crBeat last b c) s = .next (responseBeat last b c s) := rfl
@[simp] theorem stepEvent_reset (bus : BusCycle) : stepEvent (.reset bus) s = .next (resetClock bus s) := rfl
@[simp] theorem stepEvent_busConflict (a : Addr) (d : Word) :
    stepEvent (.busConflict a d) s = .refused .busConflict := rfl

theorem stepEvent_deviceCommand {bytes : List Byte} {i : Instr} (h : decodeFrame bytes = .ok i) :
    stepEvent (.deviceCommand bytes) s = exec i s := stepEvent_instr (words := .frame bytes) rfl h

end Events

/-- Every instruction is a host command, whose meaning is the busy guard around its acceptance, or a device command, whose
meaning is the host writes of its pseudo-operation. -/
theorem exec_cases (i : Instr) (s : State) :
    (∃ f, exec i s = .next (whenIdle f s) ∧
        (f = acceptEncode ∨ f = acceptDecodeDesc ∨ f = acceptAwait ∨ f = acceptRsvd3)) ∨
      ∃ op p, deviceOperands i = some (op, p) ∧ exec i s = .next (issueEncode op p s) := by
  cases i
  case encode => exact .inl ⟨_, rfl, by tauto⟩
  case decodeDesc => exact .inl ⟨_, rfl, by tauto⟩
  case await => exact .inl ⟨_, rfl, by tauto⟩
  case rsvd3 => exact .inl ⟨_, rfl, by tauto⟩
  all_goals exact .inr ⟨_, _, rfl, rfl⟩

theorem runEvents_cons_next {e : Event} {es : List Event} {s t : State} (h : stepEvent e s = .next t) :
    runEvents (e :: es) s = runEvents es t := by
  simp only [runEvents, h]

theorem runEvents_append {xs ys : List Event} {s t : State} (h : runEvents xs s = .next t) :
    runEvents (xs ++ ys) s = runEvents ys t := by
  induction xs generalizing s with
  | nil => cases h; rfl
  | cons e es ih =>
    rw [List.cons_append, runEvents]
    rw [runEvents] at h
    split at h
    · next u hu => exact ih h
    · cases h
    · cases h

end Sys2Proof.Machine
end

