-- ==== Sys2Proof/Laws/Bus.lean ====
section
/-! SUPPORT. What a host write and a host read do at each offset, and the words of the registers field by field. -/

namespace Sys2Proof.Machine

theorem wordOffset_eq_zero {a : Addr} : wordOffset a = 0 ↔ a.toNat / 4 = 0 := by unfold wordOffset; omega

theorem wordOffset_lt (a : Addr) : wordOffset a < 0x800 ∧ wordOffset a % 4 = 0 := by
  have := a.isLt; unfold wordOffset; omega

theorem wordOffset_ofNat {a : Nat} (h : a < 0x800) (h4 : a % 4 = 0) : wordOffset (BitVec.ofNat 11 a) = a := by
  unfold wordOffset; rw [BitVec.toNat_ofNat, Nat.mod_eq_of_lt (by omega)]; omega

theorem inPlbuf_iff (a : Nat) : inPlbuf a = true ↔ 0x100 ≤ a ∧ a < 0x200 := by
  simp only [inPlbuf, decide_eq_true_eq]; exact Iff.rfl

theorem inRxbuf_iff (a : Nat) : inRxbuf a = true ↔ 0x400 ≤ a ∧ a < 0x800 := by
  simp only [inRxbuf, decide_eq_true_eq]; exact Iff.rfl

theorem inFrameWindow_iff (a : Nat) : inFrameWindow a = true ↔ 0x200 ≤ a ∧ a < 0x400 := by
  simp only [inFrameWindow, decide_eq_true_eq]; exact Iff.rfl

theorem decodeCmd_accept (d : Word) {s : State} (h : s.seq = .idle) :
    exec (decodeCmd d) s = .next (accept (d.extractLsb' 0 2) s) := by rw [exec_decodeCmd, whenIdle_idle h]

/-- A write elsewhere than CMD leaves STATUS as it was. -/
theorem writeIdle_status {o : Nat} (h : o ≠ 0) (d s) : (writeIdle o d s).status = s.status := by
  unfold writeIdle
  rw [if_neg h]
  repeat' split
  all_goals rfl

/-- A write into PLBUF or RXBUF stores its four bytes. -/
theorem writeIdle_buffer {o : Nat} (h : (0x100 ≤ o ∧ o < 0x200) ∨ (0x400 ≤ o ∧ o < 0x800)) (d : Word) (s : State) :
    writeIdle o d s = { s with mem := writeBytes s.mem o (leBytes d) } := by
  unfold writeIdle
  have : (inPlbuf o || inRxbuf o) = true := by rw [Bool.or_eq_true, inPlbuf_iff, inRxbuf_iff]; exact h
  rw [if_neg (by omega), if_neg (by omega), if_neg (by omega), if_neg (by omega), if_pos this]

theorem leBytes_get (d : Word) (i : Nat) (hi : i < 4) : (leBytes d)[i]? = some (d.extractLsb' (8 * i) 8) := by
  interval_cases i <;> rfl

/-- What a word write to a buffer leaves stored. -/
theorem storedByte_word {m : List Host.Cell} {o : Nat} (h : (0x100 ≤ o ∧ o < 0x200) ∨ (0x400 ≤ o ∧ o < 0x800)) (h4 : o % 4 = 0)
    (d : Word) :
    (∀ i, i < 4 → storedByte (writeBytes m o (leBytes d)) (o + i) = some (d.extractLsb' (8 * i) 8)) ∧
    ∀ x, x < o ∨ o + 4 ≤ x → storedByte (writeBytes m o (leBytes d)) x = storedByte m x := by
  have hl : (leBytes d).length = 4 := rfl
  refine ⟨fun i hi => ?_, fun x hx => ?_⟩
  · rw [storedByte_writeBytes, if_pos ⟨by omega, by omega, (isStorage_iff _).mpr (by omega)⟩,
      show o + i - o = i by omega, leBytes_get d i hi]
  · rw [storedByte_writeBytes, if_neg (by omega)]

theorem getLsbD_bit (b : Bool) (i : Nat) : (bit b).getLsbD i = (decide (i = 0) && b) := by
  cases b <;> by_cases h : i = 0 <;> simp [bit, h]

/-- STATUS as its fields (R25 to R29). -/
theorem statusWord_append (s : State) : statusWord s =
     0#20 ++ s.status.errCode ++ 0#4 ++ BitVec.ofBool s.status.ovr ++ BitVec.ofBool s.status.err
          ++ BitVec.ofBool s.status.done ++ BitVec.ofBool (busy s) := by
  apply BitVec.eq_of_getLsbD_eq
  intro i hi
  simp only [statusWord, BitVec.getLsbD_or, BitVec.getLsbD_shiftLeft, BitVec.getLsbD_setWidth, BitVec.getLsbD_append, getLsbD_bit,
    BitVec.getLsbD_ofBool]
  interval_cases i <;> simp

/-- ENC_CTRL as its fields (R30). -/
theorem encCtrlWord_append (c : EncCtrl) : encCtrlWord c =
   0#7 ++ BitVec.ofBool c.hasPayload ++ 0#7 ++ c.len ++ c.opcode := by
  apply BitVec.eq_of_getLsbD_eq
  intro i hi
  simp only [encCtrlWord, BitVec.getLsbD_or, BitVec.getLsbD_shiftLeft, BitVec.getLsbD_setWidth, BitVec.getLsbD_append, getLsbD_bit,
    BitVec.getLsbD_ofBool]
  interval_cases i <;> simp

/-- DESC_INFO as its fields (R34). -/
theorem descInfoWord_append (c : DescInfo) : descInfoWord c =
   BitVec.ofBool c.valid ++ 0#7 ++ c.type ++ 0#7 ++ BitVec.ofBool c.single ++ 0#6 ++ c.mode := by
  apply BitVec.eq_of_getLsbD_eq
  intro i hi
  simp only [descInfoWord, BitVec.getLsbD_or, BitVec.getLsbD_shiftLeft, BitVec.getLsbD_setWidth, BitVec.getLsbD_append, getLsbD_bit,
    BitVec.getLsbD_ofBool]
  interval_cases i <;> simp

theorem setWidth_append {n k : Nat} (v : BitVec n) (m : Nat) (hk : m + n = k) : v.setWidth k = ((0#m) ++ v).cast hk := by
  apply BitVec.eq_of_getLsbD_eq
  intro i hi
  rw [BitVec.getLsbD_setWidth, BitVec.getLsbD_cast, BitVec.getLsbD_append]
  split
  · simp [hi]
  · simp [hi]; apply BitVec.getLsbD_of_ge; omega

/-- Byte i of a little-endian word (R73). -/
theorem byte_leWord (b0 b1 b2 b3 : Byte) (i : Nat) (hi : i < 4) :
    (leWord b0 b1 b2 b3).extractLsb' (8 * i) 8 = [b0, b1, b2, b3][i] := by
  unfold leWord
  ext j hj
  simp only [BitVec.getElem_extractLsb', BitVec.getLsbD_or, BitVec.getLsbD_shiftLeft, BitVec.getLsbD_setWidth]
  interval_cases i <;> interval_cases j <;> simp

theorem windowByte_stored {s : State} {a k : Nat} {b : Byte} (hs : storedByte s.mem a = some b) (hst : isStorage a = true)
    (hh : hiddenByte s a = false) : windowByte s a k = b := by
  rw [windowByte, hst, if_neg (by simp), hh, if_neg (by simp), readByte_stored hs]

theorem windowByte_hole {s : State} {a k : Nat} (hst : isStorage a = false) : windowByte s a k = 0#8 := by
  rw [windowByte, if_pos hst]

theorem hiddenByte_idle {s : State} (h : s.seq = .idle) (a : Nat) : hiddenByte s a = false := by
  simp [hiddenByte, h]

theorem readWord_byte {s : State} {o : Nat} (h : 0x100 ≤ o) (i : Nat) (hi : i < 4) :
    (readWord s o).extractLsb' (8 * i) 8 = windowByte s (o + i) (s.draws + i) := by
  rw [readWord, if_neg (by show ¬ o < 0x100; omega), byte_leWord _ _ _ _ i hi]
  interval_cases i <;> rfl

theorem readWord_reg {s : State} {o : Nat} (h : o < 0x100) : readWord s o = readRegister s o := by
  rw [readWord, if_pos (by exact h)]

theorem readRegister_frameLen (s) : readRegister s 0x00C = (fieldOr (decide (s.seq = .enc)) s.draws s.frameLen).setWidth 32 := rfl

theorem readRegister_descLen (s) : readRegister s 0x014 = (fieldOr (decide (s.seq = .dec)) s.draws s.descLen).setWidth 32 := rfl

theorem readRegister_rrN (s) : readRegister s 0x01C = s.rrN.setWidth 32 := rfl

theorem readRegister_rrGot (s) : readRegister s 0x024 = (fieldOr (awaiting s.seq) s.draws s.rrGot).setWidth 32 := rfl

/-- Host writes while busy set OVR and nothing else (R76). -/
theorem hostWrites_busy (ws : List (Addr × Word)) : ∀ {s : State}, s.seq ≠ .idle → ws ≠ [] →
    hostWrites ws s = { s with status := s.status.overrun } := by
  induction ws with
  | nil => intro s _ h; exact absurd rfl h
  | cons x ws ih =>
    intro s hs _
    obtain ⟨a, d⟩ := x
    rw [hostWrites, hostWrite, whenIdle_busy hs]
    cases ws with
    | nil => rfl
    | cons y ws => rw [ih (by exact hs) (by simp)]; rfl

theorem hostWrites_append (xs ys : List (Addr × Word)) : ∀ s, hostWrites (xs ++ ys) s = hostWrites ys (hostWrites xs s) := by
  induction xs with
  | nil => intro s; rfl
  | cons x xs ih => intro s; exact ih _

/-- A run of host write events is the host writes. -/
theorem run_hostWrites (ws : List (Addr × Word)) : ∀ s : State,
    runEvents (ws.map fun x => .hostWrite x.1 x.2) s = .next (hostWrites ws s) := by
  induction ws with
  | nil => intro s; rfl
  | cons x ws ih => intro s; rw [List.map_cons, runEvents_cons_next (stepEvent_hostWrite _ _ _), ih]; rfl

theorem encodeWrites_ne_nil (op p) : encodeWrites op p ≠ [] := by simp [encodeWrites]

/-- Every instruction while busy sets OVR and nothing else (R76). -/
theorem exec_busy {s : State} (h : s.seq ≠ .idle) (i : Instr) :
    exec i s = .next { s with status := s.status.overrun } := by
  rcases exec_cases i s with ⟨f, hf, -⟩ | ⟨op, p, -, hf⟩
  · rw [hf, whenIdle_busy h]
  · rw [hf, issueEncode, hostWrites_busy _ h (encodeWrites_ne_nil _ _)]

theorem exec_next (i : Instr) (s : State) : ∃ t, exec i s = .next t := by
  rcases exec_cases i s with ⟨f, h, -⟩ | ⟨op, p, -, h⟩ <;> exact ⟨_, h⟩

theorem exec_device {i : Instr} {op : Byte} {p : Option (List Byte)} (h : deviceOperands i = some (op, p)) (s : State) :
    exec i s = .next (issueEncode op p s) := by
  cases i <;> cases h <;> rfl

end Sys2Proof.Machine
end

