-- ==== Sys2Proof/Laws/Descriptor.lean ====
section
/-! SUPPORT. What DecComplete does. -/

namespace Sys2Proof.Machine

theorem leWord_append (b0 b1 b2 b3 : Byte) : leWord b0 b1 b2 b3 = b3 ++ b2 ++ b1 ++ b0 := by
  apply BitVec.eq_of_getLsbD_eq
  intro i hi
  have h : (b3 ++ b2 ++ b1 ++ b0).getLsbD i =
    if i < 8 then b0.getLsbD i else if i < 16 then b1.getLsbD (i - 8)
      else if i < 24 then b2.getLsbD (i - 16) else b3.getLsbD (i - 24) := by
    rw [BitVec.getLsbD_append, BitVec.getLsbD_append, BitVec.getLsbD_append]
    interval_cases i <;> simp
  refine Eq.trans ?_ h.symm
  unfold leWord
  interval_cases i <;> simp

theorem mode_append (b0 b1 b2 b3 : Byte) : (b3 ++ b2 ++ b1 ++ b0).extractLsb' 30 2 = b3.extractLsb' 6 2 := by
  ext i hi
  simp only [BitVec.getElem_extractLsb', BitVec.getLsbD_append]
  interval_cases i <;> simp

theorem descByte_stored {s : State} {i : Nat} {x : Byte} (h : storedByte s.mem (0x400 + i) = some x) :
    descByte s i = x := readByte_stored h _

/-- DecComplete outside DEC (R51). -/
theorem decComplete_other {s : State} (h : s.seq ≠ .dec) : decComplete s = s := by unfold decComplete; rw [if_neg h]

/-- DecComplete on a sync mismatch (R151, R154). -/
theorem decComplete_bad {s : State} (h : s.seq = .dec) (hb : descByte s 0 ≠ 0xA5#8 ∨ descByte s 1 ≠ 0x5A#8) :
    decComplete s = { s with
      seq := .idle, status := s.status.completed 2#4, descRaw := 0#32, descLen := 0#30,
      descInfo := { mode := 0#2, single := false, type := 0#8, valid := false }, draws := s.draws + 7 } := by
  unfold decComplete; rw [if_pos h, if_pos (by exact hb)]; rfl

/-- DecComplete on a descriptor (R151). -/
theorem decComplete_good {s : State} (h : s.seq = .dec) (h0 : descByte s 0 = 0xA5#8) (h1 : descByte s 1 = 0x5A#8) :
    decComplete s = { s with
      seq := .idle, status := s.status.completed 0#4, descRaw := descWord s,
      descLen := (descWord s).extractLsb' 0 30, descInfo := descInfoFor (descWord s) (descByte s 6),
      draws := s.draws + 7 } := by
  unfold decComplete; rw [if_pos h, if_neg (by rw [h0, h1]; simp [Config.sync1, Config.sync2])]; rfl

theorem exec_decodeDesc_idle {s : State} (h : s.seq = .idle) :
    exec .decodeDesc s = .next { s with status := Status.accepted, seq := .dec } := by
  show Host.Outcome.next (whenIdle acceptDecodeDesc s) = _; rw [whenIdle_idle h]; rfl

/-- The fields DecComplete can change. -/
theorem decComplete_frame (s : State) : ∃ q st a b c dr, decComplete s = { s with seq := q, status := st, descRaw := a, descLen := b, descInfo := c, draws := dr } := by
  unfold decComplete
  repeat' split
  all_goals exact ⟨_, _, _, _, _, _, rfl⟩

end Sys2Proof.Machine
end

