-- ==== Sys2Proof/Laws/Encoder.lean ====
section
/-! SUPPORT. What EncComplete does: the frame function, the operand bytes, and the stored frame. -/

namespace Sys2Proof.Machine

theorem frame_none (op : Byte) (len : Nat) (p : List Byte) : frame op false len p = some (wireFrame op none) := rfl

theorem frame_payload {op : Byte} {len : Nat} {p : List Byte} (hp : p.length = len) (hl : len ≤ 255) :
    frame op true len p = some (wireFrame op (some p)) := by
  unfold frame
  rw [if_neg (by simp), if_neg (by show ¬ (255 < len); omega)]
  subst hp
  simp [wireFrame, Config.sync1, BitVec.xor_assoc]

theorem frame_long {op : Byte} {len : Nat} {p : List Byte} (hl : 255 < len) : frame op true len p = none := by
  unfold frame
  rw [if_neg (by simp), if_pos (by exact hl)]

theorem length_wireFrame_some (op : Byte) (p : List Byte) : (wireFrame op (some p)).length = p.length + 4 := by
  simp [wireFrame]

theorem length_wireFrame_none (op : Byte) : (wireFrame op none).length = 2 := rfl

/-- The bytes of a payload frame by position (R111). -/
theorem wireFrame_bytes (op : Byte) (p : List Byte) :
    (wireFrame op (some p))[0]? = some 0xA5#8 ∧ (wireFrame op (some p))[1]? = some op ∧
    (wireFrame op (some p))[2]? = some (BitVec.ofNat 8 p.length) ∧
    (∀ i, i < p.length → (wireFrame op (some p))[3 + i]? = p[i]?) ∧
    (wireFrame op (some p))[3 + p.length]? = some (0xA5#8 ^^^ op ^^^ BitVec.ofNat 8 p.length ^^^ xorBytes p) := by
  refine ⟨rfl, rfl, rfl, fun i hi => ?_, ?_⟩
  · simp [wireFrame, Nat.add_comm 3 i, List.getElem?_append, hi]
  · simp [wireFrame, Nat.add_comm 3]

theorem length_payloadOperand (s : State) : (payloadOperand s).length = s.encCtrl.len.toNat := by simp [payloadOperand]

theorem payloadOperand_stored (s : State) (i : Nat) (b : Byte) (hi : i < (payloadOperand s).length)
    (h : storedByte s.mem (0x100 + i) = some b) : (payloadOperand s)[i]? = some b := by
  rw [length_payloadOperand] at hi
  rw [payloadOperand, getElem?_readBytes hi]
  exact congrArg some (readByte_stored h _)

theorem encodeResult_none {s : State} (h : s.encCtrl.hasPayload = false) :
    encodeResult s = some (wireFrame s.encCtrl.opcode none) := by rw [encodeResult, h]; rfl

theorem encodeResult_payload {s : State} (h : s.encCtrl.hasPayload = true) (hl : s.encCtrl.len.toNat ≤ 255) :
    encodeResult s = some (wireFrame s.encCtrl.opcode (some (payloadOperand s))) := by
  rw [encodeResult, h, frame_payload (length_payloadOperand s) hl]

theorem encodeResult_long {s : State} (h : s.encCtrl.hasPayload = true) (hl : 255 < s.encCtrl.len.toNat) :
    encodeResult s = none := by rw [encodeResult, h, frame_long hl]

theorem encodeResult_length {s : State} {r : List Byte} (hr : encodeResult s = some r) : r.length ≤ 259 := by
  by_cases hp : s.encCtrl.hasPayload = true
  · by_cases hl : s.encCtrl.len.toNat ≤ 255
    · rw [encodeResult_payload hp hl] at hr; cases hr
      rw [length_wireFrame_some, length_payloadOperand]; omega
    · rw [encodeResult_long hp (by omega)] at hr; cases hr
  · rw [encodeResult_none (by simpa using hp)] at hr; cases hr; simp [length_wireFrame_none]

/-- EncComplete outside ENC (R51). -/
theorem encComplete_other {s : State} (h : s.seq ≠ .enc) : encComplete s = s := by unfold encComplete; rw [if_neg h]

/-- EncComplete with a frame (R132). -/
theorem encComplete_ok {s : State} {r : List Byte} (h : s.seq = .enc) (hr : encodeResult s = some r) :
    encComplete s = { s with
      seq := .idle, status := s.status.completed 0#4, mem := writeBytes s.mem 0x200 r,
      frameLen := BitVec.ofNat 9 r.length, draws := s.draws + s.encCtrl.len.toNat } := by
  unfold encComplete; rw [if_pos h, hr]; rfl

/-- EncComplete without one (R133, R134). -/
theorem encComplete_fail {s : State} (h : s.seq = .enc) (hr : encodeResult s = none) :
    encComplete s = { s with seq := .idle, status := s.status.completed 1#4, frameLen := 0#9 } := by
  unfold encComplete; rw [if_pos h, hr]; rfl

/-- What stands at an address after a frame is written. -/
theorem storedByte_frame {m : List Host.Cell} {f : List Byte} {a : Nat} (hf : f.length ≤ 259) :
    storedByte (writeBytes m 0x200 f) a =
      if 0x200 ≤ a ∧ a < 0x200 + f.length then f[a - 0x200]? else storedByte m a := by
  rw [storedByte_writeBytes]
  by_cases h : 0x200 ≤ a ∧ a < 0x200 + f.length
  · rw [if_pos h, if_pos ⟨h.1, h.2, (isStorage_iff a).mpr (by omega)⟩]
  · rw [if_neg h, if_neg (by tauto)]

theorem readBytes_frame {m : List Host.Cell} {f : List Byte} (hf : f.length ≤ 259) (k : Nat) (n : Nat) (hn : n ≤ f.length) :
    readBytes (writeBytes m 0x200 f) 0x200 k n = f.take n := by
  apply List.ext_getElem?
  intro i
  by_cases hi : i < n
  · rw [getElem?_readBytes hi, List.getElem?_take_of_lt hi]
    have : storedByte (writeBytes m 0x200 f) (0x200 + i) = some f[i] := by
      rw [storedByte_frame hf, if_pos (by omega)]; simp
    rw [readByte_stored this]; simp
  · rw [List.getElem?_eq_none (by simp; omega), List.getElem?_eq_none (by simp; omega)]

theorem xorBytes_wireFrame (op : Byte) (p : List Byte) : xorBytes (wireFrame op (some p)) = 0#8 := by
  simp [wireFrame]

theorem xorBytes_set (f : List Byte) : ∀ (i : Nat) (b c : Byte), f[i]? = some b → xorBytes (f.set i c) = xorBytes f ^^^ b ^^^ c := by
  induction f with
  | nil => intro i b c h; simp at h
  | cons x f ih =>
    intro i b c h
    cases i with
    | zero =>
      simp at h; subst h
      simp only [List.set_cons_zero, xorBytes_cons]
      rw [BitVec.xor_comm x, BitVec.xor_assoc _ x x]; simp [BitVec.xor_comm]
    | succ i =>
      simp at h
      simp only [List.set_cons_succ, xorBytes_cons, ih i b c h, BitVec.xor_assoc]

theorem encComplete_mem (s : State) (a : Nat) (ha : a < 0x200 ∨ 0x400 ≤ a) : storedByte (encComplete s).mem a = storedByte s.mem a := by
  by_cases h : s.seq = .enc
  · cases hr : encodeResult s with
    | none => rw [encComplete_fail h hr]
    | some r =>
      have := encodeResult_length hr
      rw [encComplete_ok h hr]; dsimp only; rw [storedByte_frame this, if_neg (by omega)]
  · unfold encComplete; rw [if_neg h]

/-- The fields EncComplete can change. -/
theorem encComplete_frame (s : State) : ∃ q st fl m dr, encComplete s = { s with seq := q, status := st, frameLen := fl, mem := m, draws := dr } := by
  unfold encComplete
  repeat' split
  all_goals exact ⟨_, _, _, _, _, rfl⟩

end Sys2Proof.Machine
end

