-- ==== Sys2Proof/Laws/Encoding.lean ====
section
/-! SUPPORT. The wire frame read back: what the decoder gives on the frame of an opcode and a payload, and what a frame that decodes
looks like. -/

namespace Sys2Proof.Machine

/-- The frame of a listed opcode decodes to its instruction. -/
theorem decodeFrame_wire (op : Byte) (p : Option (List Byte)) (hp : payloadFits p = true) (i : Instr)
    (hi : deviceInstr op p = some i) : decodeFrame (wireFrame op p) = .ok i := by
  cases p with
  | none => simp [wireFrame, decodeFrame, decodePayload, Config.sync1, hi]
  | some p =>
    have hl : p.length ≤ 255 := of_decide_eq_true hp
    have hm : p.length % 256 = p.length := Nat.mod_eq_of_lt (by omega)
    simp [wireFrame, decodeFrame, decodePayload, Config.sync1, hi, hm, BitVec.xor_assoc]

theorem deviceInstr_wire {op : Byte} {p : Option (List Byte)} {i : Instr} (h : deviceInstr op p = some i)
   (hp : payloadFits p = true) : i.WellFormed ∧ encode i = .frame (wireFrame op p) := by
  unfold deviceInstr at h
  repeat' split at h
  all_goals first | (cases h; subst_vars; exact ⟨hp, rfl⟩) | cases h

/-- What decodes as a payload part is the tail of a frame. -/
theorem decodePayload_ok {op : Byte} {rest : List Byte} {p : Option (List Byte)}
    (h : decodePayload [Config.sync1, op] rest = .ok p) :
    payloadFits p = true ∧ wireFrame op p = Config.sync1 :: op :: rest := by
  cases rest with
  | nil => cases h; exact ⟨rfl, rfl⟩
  | cons len tl =>
    rw [decodePayload] at h
    split at h
    · cases h
    · next hl =>
      split at h
      · cases h
      · next hc =>
        have hlen : tl.length = len.toNat + 1 := by simpa using hl
        have hc : tl.drop len.toNat = [xorBytes ([Config.sync1, op] ++ len :: tl.take len.toNat)] := by simpa using hc
        cases h
        have h255 := len.isLt
        have hln : (tl.take len.toNat).length = len.toNat := by simp; omega
        refine ⟨by simp [payloadFits, Config.maxPayload]; omega, ?_⟩
        have : tl = tl.take len.toNat ++ tl.drop len.toNat := (List.take_append_drop _ _).symm
        conv => rhs; rw [this, hc]
        simp only [wireFrame, hln]
        simp [Config.sync1, BitVec.xor_assoc]

/-- An instruction whose encoding is a frame is a device command. -/
theorem frame_device {i : Instr} {bytes : List Byte} (h : encode i = .frame bytes) (hw : i.WellFormed) :
    ∃ op p, deviceOperands i = some (op, p) ∧ bytes = wireFrame op p ∧ payloadFits p = true := by
  cases i <;> try cases h
  all_goals exact ⟨_, _, rfl, rfl, hw⟩

end Sys2Proof.Machine
end

