-- ==== Sys2Proof/Laws/DeviceCommands.lean ====
section
/-! SUPPORT. What the host writes of a device command leave: PLBUF, ENC_CTRL and a started ENCODE. -/

namespace Sys2Proof.Machine

theorem leBytes_leWord (b0 b1 b2 b3 : Byte) : leBytes (leWord b0 b1 b2 b3) = [b0, b1, b2, b3] := by
  have h := byte_leWord b0 b1 b2 b3
  unfold leBytes
  have h0 := h 0 (by omega)
  have h1 := h 1 (by omega)
  have h2 := h 2 (by omega)
  have h3 := h 3 (by omega)
  simp only [Nat.reduceMul] at h0 h1 h2 h3
  rw [h0, h1, h2, h3]; rfl

/-- WRB writes the payload and its padding (R118). -/
theorem wrbWords_bytes (p : List Byte) : ∃ pad, pad < 4 ∧ (wrbWords p).flatMap leBytes = p ++ List.replicate pad 0#8 ∧
    p.length + pad = (p.length + 3) / 4 * 4 := by
  induction p using wrbWords.induct with
  | case1 => exact ⟨0, by omega, rfl, rfl⟩
  | case2 b0 => exact ⟨3, by omega, by simp [wrbWords, leBytes_leWord], by simp⟩
  | case3 b0 b1 => exact ⟨2, by omega, by simp [wrbWords, leBytes_leWord], by simp⟩
  | case4 b0 b1 b2 => exact ⟨1, by omega, by simp [wrbWords, leBytes_leWord], by simp⟩
  | case5 b0 b1 b2 b3 rest ih =>
    obtain ⟨pad, h1, h2, h3⟩ := ih
    refine ⟨pad, h1, ?_, ?_⟩
    · simp [wrbWords, leBytes_leWord, h2]
    · simp only [List.length_cons]; omega

theorem length_wrbWords (p : List Byte) : (wrbWords p).length = (p.length + 3) / 4 := by
  induction p using wrbWords.induct with
  | case5 b0 b1 b2 b3 rest ih => simp only [wrbWords, List.length_cons, ih]; omega
  | _ => simp [wrbWords]

theorem hostWrites_plbuf (ws : List Word) : ∀ (a : Nat) (s : State), s.seq = .idle → 0x100 ≤ a → a % 4 = 0 →
    a + 4 * ws.length ≤ 0x200 →
    hostWrites (writesFrom a ws) s = { s with mem := writeBytes s.mem a (ws.flatMap leBytes) } := by
  induction ws with
  | nil => intro a s _ _ _ _; rfl
  | cons w ws ih =>
    intro a s h h1 h4 hl
    simp only [List.length_cons] at hl
    rw [writesFrom, hostWrites, hostWrite, whenIdle_idle h, wordOffset_ofNat (by omega) h4, writeIdle_buffer (by omega),
      ih (a + 4) _ (by exact h) (by omega) (by omega) (by omega)]
    rw [List.flatMap_cons, writeBytes_append]; rfl

theorem encCtrlOf_word_none (op : Byte) : encCtrlOf (encodeCtrlWord op none) = { opcode := op, len := 0#9, hasPayload := false } := by
  simp only [encCtrlOf, encodeCtrlWord, EncCtrl.mk.injEq]
  refine ⟨?_, ?_, ?_⟩
  · apply BitVec.eq_of_getLsbD_eq; intro i hi
    simp only [BitVec.getLsbD_extractLsb', BitVec.getLsbD_setWidth]
    interval_cases i <;> simp
  · apply BitVec.eq_of_getLsbD_eq; intro i hi
    simp only [BitVec.getLsbD_extractLsb', BitVec.getLsbD_setWidth]
    interval_cases i <;> simp
  · simp

theorem encCtrlOf_word_some (op : Byte) (p : List Byte) : encCtrlOf (encodeCtrlWord op (some p)) =
    { opcode := op, len := BitVec.ofNat 9 (min p.length 511), hasPayload := true } := by
  have hm : min p.length 511 < 512 := by omega
  simp only [encCtrlOf, encodeCtrlWord, EncCtrl.mk.injEq]
  generalize min p.length 511 = n at hm
  have hn : ∀ j, 9 ≤ j → n.testBit j = false := fun j hj => Nat.testBit_lt_two_pow (lt_of_lt_of_le hm (by
    calc 512 = 2 ^ 9 := rfl
      _ ≤ 2 ^ j := Nat.pow_le_pow_right (by omega) hj))
  have hc : ∀ j, (0x01000000#32).getLsbD j = decide (j = 24) := by
    intro j
    by_cases hj : j < 32
    · interval_cases j <;> rfl
    · rw [BitVec.getLsbD_of_ge _ _ (by omega)]; simp; omega
  refine ⟨?_, ?_, ?_⟩
  · apply BitVec.eq_of_getLsbD_eq; intro i hi
    simp only [BitVec.getLsbD_extractLsb', BitVec.getLsbD_setWidth, BitVec.getLsbD_or, BitVec.getLsbD_shiftLeft, BitVec.getLsbD_ofNat, hc]
    interval_cases i <;> simp
  · apply BitVec.eq_of_getLsbD_eq; intro i hi
    simp only [BitVec.getLsbD_extractLsb', BitVec.getLsbD_setWidth, BitVec.getLsbD_or, BitVec.getLsbD_shiftLeft, BitVec.getLsbD_ofNat, hc]
    interval_cases i <;> simp
  · simp only [BitVec.getLsbD_setWidth, BitVec.getLsbD_or, BitVec.getLsbD_shiftLeft, BitVec.getLsbD_ofNat, hc]; simp

end Sys2Proof.Machine
end

