-- ==== Sys2Proof/Laws/Invariant.lean ====
section
/-! SUPPORT. The invariant under the updates that several steps share. -/

namespace Sys2Proof.Machine

theorem inv_frame {s : State} (hi : Inv s) (h : Word) (d : Nat) (e : List Event) :
    Inv { s with hRdata := h, draws := d, schedule := e } := { hi with }

theorem inv_overrun {s : State} (hi : Inv s) : Inv { s with status := s.status.overrun } := { hi with }

theorem inv_mem {s : State} (hi : Inv s) {m : List Host.Cell} (hm : Memory.wf m) : Inv { s with mem := m } :=
  { hi with memWf := hm }

theorem inv_operand {s : State} (hi : Inv s) (h : s.seq = .idle) (c : EncCtrl) (n : BitVec 16) (t : Word) :
    Inv { s with encCtrl := c, rrN := n, rrTimeout := t } :=
  { hi with
    awaitBounds := fun hx => by dsimp only at hx; rw [h] at hx; cases hx
    waitBounds := fun hx => by dsimp only at hx; rw [h] at hx; cases hx
    readBounds := fun hx => by dsimp only at hx; rw [h] at hx; cases hx }

/-- Where a request is offered: in POLL or READ, and it is not taken yet. -/
theorem offered_chan {s : State} (hi : Inv s) (hv : cqValid s = true) :
    (s.seq = .poll ∨ s.seq = .read) ∧ s.chan.outstanding = false := by
  have hv : s.chan.cqValid = true := hv
  have h1 := hi.chanBusy
  have h2 := hi.chanOne
  rw [hv, Bool.true_or, eq_comm, decide_eq_true_eq] at h1
  rw [hv, Bool.true_and] at h2
  exact ⟨h1, h2⟩

theorem quiet_chan {s : State} (hi : Inv s) (hp : s.seq ≠ .poll) (hr : s.seq ≠ .read) :
    (s.chan.cqValid || s.chan.outstanding) = false ∧ s.chan.beats = 0 := by
  refine ⟨by rw [hi.chanBusy]; simp [hp, hr], ?_⟩
  by_contra hb
  exact hr (hi.beatsOfRead hb).1

end Sys2Proof.Machine
end

