-- ==== Sys2Proof/Laws/PerInstr.lean ====
section
/-! SUPPORT. A statement about every instruction as syntax, one lemma per constructor. -/

namespace Sys2Proof.Laws.FrameShape

/-- The shape of an instruction's words: a command word whose bits [31:2] are 0 (R100), or a frame that opens with the sync
byte and has 2, or 4 to 259 bytes (R110, R111, R116). -/
def Statement (i : Instr) : Prop :=
  i.WellFormed →
    (∃ w, encode i = .cmdWord w ∧ w.extractLsb' 2 30 = 0#30) ∨
      ∃ bytes, encode i = .frame bytes ∧ bytes.head? = some 0xA5#8 ∧
        (bytes.length = 2 ∨ (4 ≤ bytes.length ∧ bytes.length ≤ 259))

theorem of_wireFrame (op : Byte) {p : Option (List Byte)} (h : payloadFits p = true) :
    (wireFrame op p).head? = some 0xA5#8 ∧
      ((wireFrame op p).length = 2 ∨ (4 ≤ (wireFrame op p).length ∧ (wireFrame op p).length ≤ 259)) := by
  cases p with
  | none => exact ⟨rfl, .inl rfl⟩
  | some p =>
    have hp : p.length ≤ 255 := of_decide_eq_true h
    exact ⟨rfl, .inr (by simp [wireFrame]; omega)⟩

theorem encode : Statement .encode := fun _ => .inl ⟨_, rfl, by decide⟩
theorem decodeDesc : Statement .decodeDesc := fun _ => .inl ⟨_, rfl, by decide⟩
theorem await : Statement .await := fun _ => .inl ⟨_, rfl, by decide⟩
theorem rsvd3 : Statement .rsvd3 := fun _ => .inl ⟨_, rfl, by decide⟩
theorem getInfo (p : Option (List Byte)) : Statement (.getInfo p) := fun h => .inr ⟨_, rfl, of_wireFrame _ h⟩
theorem getHealth (p : Option (List Byte)) : Statement (.getHealth p) := fun h => .inr ⟨_, rfl, of_wireFrame _ h⟩
theorem stop (p : Option (List Byte)) : Statement (.stop p) := fun h => .inr ⟨_, rfl, of_wireFrame _ h⟩
theorem reset (p : Option (List Byte)) : Statement (.reset p) := fun h => .inr ⟨_, rfl, of_wireFrame _ h⟩
theorem startScan (p : Option (List Byte)) : Statement (.startScan p) := fun h => .inr ⟨_, rfl, of_wireFrame _ h⟩
theorem forceScan (p : Option (List Byte)) : Statement (.forceScan p) := fun h => .inr ⟨_, rfl, of_wireFrame _ h⟩
theorem setMotorPwm (p : Option (List Byte)) : Statement (.setMotorPwm p) := fun h => .inr ⟨_, rfl, of_wireFrame _ h⟩

end Sys2Proof.Laws.FrameShape
end

