-- ==== Sys2Proof/Laws/Reader.lean ====
section
/-! SUPPORT. What the steps of a running AWAIT do, branch by branch. -/

namespace Sys2Proof.Machine

theorem not_le_setWidth {n : BitVec 16} {c : Word} (h : c.toNat < n.toNat) : ¬ n.setWidth 32 ≤ c := by
  rw [BitVec.le_def]; simp; rw [Nat.mod_eq_of_lt (by omega)]; omega

/-- A poll that finds enough (R173). -/
theorem poll_read {s : State} {c : Word} (h : s.seq = .poll) (hc : s.rrN.toNat ≤ c.toNat) :
    pollStep c s = { s with rrAvail := c, seq := .read, chan := Channel.offered } := by
  unfold pollStep
  rw [if_pos h, if_pos (by rw [BitVec.le_def]; simpa using le_trans (Nat.mod_le _ _) hc)]

/-- A poll at the deadline (R173, R174). -/
theorem poll_timeout {s : State} {c : Word} (h : s.seq = .poll) (hc : c.toNat < s.rrN.toNat)
    (ht : s.rrTimeout.toNat ≤ s.rrElapsed.toNat) :
    pollStep c s = { s with rrAvail := c, seq := .idle, status := s.status.completed 4#4, chan := Channel.quiet } := by
  unfold pollStep
  rw [if_pos h, if_neg (not_le_setWidth hc), if_pos (by rw [BitVec.le_def]; exact ht)]; rfl

/-- A poll before the deadline (R173). -/
theorem poll_wait {s : State} {c : Word} (h : s.seq = .poll) (hc : c.toNat < s.rrN.toNat)
    (ht : s.rrElapsed.toNat < s.rrTimeout.toNat) :
    pollStep c s = { s with rrAvail := c, seq := .wait, chan := Channel.quiet } := by
  unfold pollStep
  rw [if_pos h, if_neg (not_le_setWidth hc), if_neg (by rw [BitVec.le_def]; omega)]

theorem poll_other {s : State} {c : Word} (h : s.seq ≠ .poll) : pollStep c s = s := by unfold pollStep; rw [if_neg h]

theorem tick_wait {s : State} (h : s.seq = .wait) :
    tickStep s = { s with rrElapsed := s.rrElapsed + 1#32, seq := .poll, chan := Channel.offered } := by
  unfold tickStep; rw [if_pos h]

theorem tick_other {s : State} (h : s.seq ≠ .wait) : tickStep s = s := by unfold tickStep; rw [if_neg h]

theorem elapsed_succ {s : State} (ht : s.rrElapsed.toNat < s.rrTimeout.toNat) :
    (s.rrElapsed + 1#32).toNat = s.rrElapsed.toNat + 1 := by
  have h2 := s.rrTimeout.isLt
  rw [BitVec.toNat_add]; simp; omega

theorem read_other {s : State} {d} (h : s.seq ≠ .read) : readStep d s = s := by unfold readStep; rw [if_neg h]

/-- A read in progress ends (R176). -/
theorem read_any {s : State} {d : List Byte} (h : s.seq = .read) :
    readStep d s = { s with
      seq := .idle, status := s.status.completed (if receivedCount s d < awaitN s then 3#4 else 0#4),
      mem := storeReceived s d, rrGot := BitVec.ofNat 16 (receivedCount s d), chan := Channel.quiet } := by
  unfold readStep; rw [if_pos h]; rfl

/-- A whole read (R176). -/
theorem read_whole {s : State} {d : List Byte} (h : s.seq = .read) (hb : s.chan.beats = 0) :
    readStep d s = { s with
      seq := .idle, status := s.status.completed (if d.length < s.rrN.toNat then 3#4 else 0#4),
      mem := writeBytes s.mem 0x400 (d.take s.rrN.toNat), rrGot := BitVec.ofNat 16 (min d.length s.rrN.toNat),
      chan := Channel.quiet } := by
  unfold readStep
  rw [if_pos h]
  simp only [storeReceived, receivedCount, hb, awaitN, complete]
  simp
  rfl

theorem storedByte_rx {m : List Host.Cell} {f : List Byte} {a : Nat} (hf : f.length ≤ 1024) :
    storedByte (writeBytes m 0x400 f) a =
      if 0x400 ≤ a ∧ a < 0x400 + f.length then f[a - 0x400]? else storedByte m a := by
  rw [storedByte_writeBytes]
  by_cases h : 0x400 ≤ a ∧ a < 0x400 + f.length
  · rw [if_pos h, if_pos ⟨h.1, h.2, (isStorage_iff a).mpr (by omega)⟩]
  · rw [if_neg h, if_neg (by tauto)]

/-- A data beat before the rest of a response is the response with it in front (R114). -/
theorem read_dataBeat {s : State} {b : Byte} {d : List Byte} (h : s.seq = .read) :
    readStep d (dataBeat b s) = readStep (b :: d) s := by
  rw [read_any h, read_any (s := dataBeat b s) h]
  have hc : receivedCount (dataBeat b s) d = receivedCount s (b :: d) := by
    simp [receivedCount, dataBeat, awaitN]; omega
  have hs : storeReceived (dataBeat b s) d = storeReceived s (b :: d) := by
    simp only [storeReceived, dataBeat, awaitN]
    rcases Nat.eq_zero_or_pos (s.rrN.toNat - s.chan.beats) with hz | hz
    · have : s.rrN.toNat - (s.chan.beats + 1) = 0 := by omega
      simp [hz, this, writeBytes]
    · obtain ⟨k, hk⟩ := Nat.exists_eq_succ_of_ne_zero (by omega : s.rrN.toNat - s.chan.beats ≠ 0)
      have : s.rrN.toNat - (s.chan.beats + 1) = k := by omega
      simp [hk, this, writeBytes, Nat.add_assoc]
  rw [hc, hs]; rfl

theorem exec_await_idle {s : State} (h : s.seq = .idle) (hn : s.rrN.toNat ≤ 1024) :
    exec .await s = .next { s with
        status := Status.accepted, rrGot := 0#16, rrElapsed := 0#32, rrAvail := 0#32, seq := .poll,
        chan := Channel.offered } := by
  show Host.Outcome.next (whenIdle acceptAwait s) = _; rw [whenIdle_idle h, acceptAwait_ok hn]

/-- A poll that finds too few and the tick after it. -/
theorem poll_tick {s : State} {c : Word} {es : List Event} (h : s.seq = .poll) (hc : c.toNat < s.rrN.toNat)
    (ht : s.rrElapsed.toNat < s.rrTimeout.toNat) :
    runEvents (.poll c :: .tick :: es) s = runEvents es { s with rrAvail := c, rrElapsed := s.rrElapsed + 1#32, chan := Channel.offered } := by
  rw [runEvents_cons_next (stepEvent_poll _ _), poll_wait h hc ht, runEvents_cons_next (stepEvent_tick _), tick_wait (by rfl)]
  cases s; cases h; rfl

theorem pollSchedule_append (xs ys : List Word) : pollSchedule (xs ++ ys) = pollSchedule xs ++ pollSchedule ys := by
  induction xs with
  | nil => rfl
  | cons x xs ih => simp [pollSchedule, ih]

theorem await_event (e : Event) (he : isAwaitEvent e = true) (s : State) : ∃ t, stepEvent e s = .next t := by
  cases e <;> first | exact ⟨_, stepEvent_hostWrite _ _ _⟩ | exact ⟨_, rfl⟩ | cases he

theorem count_cons {p : State → Event → Bool} {e : Event} {es : List Event} {s t : State} (h : stepEvent e s = .next t) :
    countAnswers p (e :: es) s = (if p s e then 1 else 0) + countAnswers p es t := by
  simp only [countAnswers, h]

/-- The fields Poll can change. -/
theorem poll_frame (c : Word) (s : State) : ∃ q st av ch, pollStep c s = { s with seq := q, status := st, rrAvail := av, chan := ch } := by
  unfold pollStep
  repeat' split
  all_goals exact ⟨_, _, _, _, rfl⟩

theorem tick_frame (s : State) : ∃ q el ch, tickStep s = { s with seq := q, rrElapsed := el, chan := ch } := by
  unfold tickStep
  split <;> exact ⟨_, _, _, rfl⟩

theorem read_frame (d : List Byte) (s : State) : ∃ q st g m ch, readStep d s = { s with seq := q, status := st, rrGot := g, mem := m, chan := ch } ∧
    ∀ a, a < 0x400 → storedByte m a = storedByte s.mem a := by
  by_cases h : s.seq = .read
  · refine ⟨_, _, _, _, _, read_any h, fun a ha => ?_⟩
    rw [storeReceived, storedByte_writeBytes, if_neg (by show ¬ (0x400 + _ ≤ _ ∧ _); omega)]
  · exact ⟨_, _, _, _, _, read_other h, fun _ _ => rfl⟩

theorem beat_frame (l : Bool) (b : Byte) (c : Word) (s : State) : ∃ q st av g m ch,
    responseBeat l b c s = { s with seq := q, status := st, rrAvail := av, rrGot := g, mem := m, chan := ch } ∧
    ∀ a, a < 0x400 → storedByte m a = storedByte s.mem a := by
  unfold responseBeat
  split
  · split
    · split
      · obtain ⟨q, st, av, ch, h⟩ := poll_frame c s
        exact ⟨_, _, _, _, _, _, h, fun _ _ => rfl⟩
      · exact ⟨_, _, _, _, _, _, rfl, fun _ _ => rfl⟩
    · split
      · obtain ⟨q, st, av, m, ch, h, hm⟩ := read_frame [] s
        exact ⟨_, _, _, _, _, _, h, hm⟩
      · refine ⟨_, _, _, _, _, _, rfl, fun a ha => ?_⟩
        rw [storeReceived, storedByte_writeBytes, if_neg (by show ¬ (0x400 + _ ≤ _ ∧ _); omega)]
    all_goals exact ⟨_, _, _, _, _, _, rfl, fun _ _ => rfl⟩
  · exact ⟨_, _, _, _, _, _, rfl, fun _ _ => rfl⟩

/-- A response beat with no request taken and unanswered (R115). -/
theorem beat_stray {s : State} (h : s.chan.outstanding = false) (l : Bool) (b : Byte) (c : Word) :
    responseBeat l b c s = s := by unfold responseBeat; rw [if_neg (by simp [h])]

/-- The last beat of a query's response is the query's answer (R113). -/
theorem beat_poll_last {s : State} (h : s.seq = .poll) (ho : s.chan.outstanding = true) (b : Byte) (c : Word) :
    responseBeat true b c s = pollStep c s := by simp [responseBeat, h, ho]

/-- The last beat of a read's response ends the read (R114). -/
theorem beat_read_last {s : State} (h : s.seq = .read) (ho : s.chan.outstanding = true) (b : Byte) (c : Word) :
    responseBeat true b c s = readStep [] s := by simp [responseBeat, h, ho]

/-- A data beat of a read's response (R114). -/
theorem beat_read_data {s : State} (h : s.seq = .read) (ho : s.chan.outstanding = true) (b : Byte) (c : Word) :
    responseBeat false b c s = dataBeat b s := by simp [responseBeat, h, ho]

/-- The request ports while a request is offered (R49, R113, R114), and while none is (notes/assumptions/21). -/
theorem cqKind_offered {s : State} (h : cqValid s = true) : cqKind s = some (decide (s.seq = .read)) := by simp [cqKind, h]

theorem cqN_offered {s : State} (h : cqValid s = true) : cqN s = some (if s.seq = .read then s.rrN else 0#16) := by
  simp [cqN, h]

theorem cqKind_none {s : State} (h : cqValid s = false) : cqKind s = none := by simp [cqKind, h]

theorem cqN_none {s : State} (h : cqValid s = false) : cqN s = none := by simp [cqN, h]

theorem take_frame (s : State) : ∃ ch, takeRequest s = { s with chan := ch } := by
  unfold takeRequest
  split <;> exact ⟨_, rfl⟩

end Sys2Proof.Machine
end

