-- ==== Sys2Proof/Tests/Slice0.lean ====
section
/-! SUPPORT. Tests. Expected results come from spec/95_test_vectors.md and the encodings of spec/30_encoding.md, not from the
model. After them, a witness for the hypotheses of each statement that has any. -/

namespace Sys2Proof.Tests

open Sys2Proof.Machine

/-! Well-formedness: a payload of 256 bytes is refused, 255 and none are not (R111). -/

def tooLong : Option (List Byte) := some (List.replicate 256 0x00#8)
def longest : Option (List Byte) := some (List.replicate 255 0x00#8)

theorem payload_256 : payloadFits tooLong = false := by
  show decide ((List.replicate 256 (0x00#8 : Byte)).length ≤ 255) = false
  rw [List.length_replicate]; rfl
theorem payload_255 : payloadFits longest = true := by
  show decide ((List.replicate 255 (0x00#8 : Byte)).length ≤ 255) = true
  rw [List.length_replicate]; rfl

theorem test_long_getInfo : (Instr.getInfo tooLong).wf = false := payload_256
theorem test_long_getHealth : (Instr.getHealth tooLong).wf = false := payload_256
theorem test_long_stop : (Instr.stop tooLong).wf = false := payload_256
theorem test_long_reset : (Instr.reset tooLong).wf = false := payload_256
theorem test_long_startScan : (Instr.startScan tooLong).wf = false := payload_256
theorem test_long_forceScan : (Instr.forceScan tooLong).wf = false := payload_256
theorem test_long_setMotorPwm : (Instr.setMotorPwm tooLong).wf = false := payload_256
theorem test_longest_fits : (Instr.setMotorPwm longest).wf = true := payload_255
theorem test_none_fits : (Instr.getInfo none).wf = true := by decide

/-! Decoding: words written out from the spec's encodings (R103, R110, R111, R120; vectors E1 to E13, C2v, C4v). -/

theorem test_decode_encode : decode (.cmdWord 0b00000000000000000000000000000000#32) = .ok .encode := by decide
theorem test_decode_encode_bit2 : decode (.cmdWord 0b00000000000000000000000000000100#32) = .ok .encode := by decide
theorem test_decode_decodeDesc : decode (.cmdWord 0b00000000000000000000000000000001#32) = .ok .decodeDesc := by decide
theorem test_decode_await : decode (.cmdWord 0b00000000000000000000000000000010#32) = .ok .await := by decide
theorem test_decode_rsvd3 : decode (.cmdWord 0b11111111111111111111111111111111#32) = .ok .rsvd3 := by decide
theorem test_decode_getInfo : decode (.frame [0b10100101#8, 0b01010000#8]) = .ok (.getInfo none) := by decide
theorem test_decode_getHealth : decode (.frame [0b10100101#8, 0b01010010#8]) = .ok (.getHealth none) := by decide
theorem test_decode_stop : decode (.frame [0b10100101#8, 0b00100101#8]) = .ok (.stop none) := by decide
theorem test_decode_reset : decode (.frame [0b10100101#8, 0b01000000#8]) = .ok (.reset none) := by decide
theorem test_decode_startScan : decode (.frame [0b10100101#8, 0b00100000#8]) = .ok (.startScan none) := by decide
theorem test_decode_forceScan : decode (.frame [0b10100101#8, 0b00100001#8]) = .ok (.forceScan none) := by decide
theorem test_decode_setMotorPwm :
    decode (.frame [0xA5#8, 0xF0#8, 0x02#8, 0x94#8, 0x02#8, 0xC1#8]) = .ok (.setMotorPwm (some [0x94#8, 0x02#8])) := by
  decide
theorem test_decode_empty_payload :
    decode (.frame [0xA5#8, 0x50#8, 0x00#8, 0xF5#8]) = .ok (.getInfo (some [])) := by decide
theorem test_decode_too_short : decode (.frame [0xA5#8]) = .error .tooShort := by decide
theorem test_decode_bad_sync : decode (.frame [0x5A#8, 0x50#8]) = .error .badSync := by decide
theorem test_decode_unlisted : decode (.frame [0xA5#8, 0x84#8]) = .error (.unlistedOpcode 0x84#8) := by decide
theorem test_decode_bad_length : decode (.frame [0xA5#8, 0xF0#8, 0x02#8, 0x94#8, 0xC1#8]) = .error .badLength := by decide
theorem test_decode_bad_checksum :
    decode (.frame [0xA5#8, 0xF0#8, 0x02#8, 0x95#8, 0x02#8, 0xC1#8]) = .error .badChecksum := by decide

/-! Encoding (vectors E1, E8). -/

theorem test_encode_getInfo : encode (.getInfo none) = .frame [0xA5#8, 0x50#8] := by decide
theorem test_encode_setMotorPwm :
    encode (.setMotorPwm (some [0x94#8, 0x02#8])) = .frame [0xA5#8, 0xF0#8, 0x02#8, 0x94#8, 0x02#8, 0xC1#8] := by decide

/-! The opcode table's numbers. -/

theorem test_table_await : decodeTableWord 32 2 = some .await := by decide
theorem test_table_rsvd3 : decodeTableWord 32 0xFFFFFFFF = some .rsvd3 := by decide
theorem test_table_stop : decodeTableWord 16 0xA525 = some (.stop none) := by decide
theorem test_table_getHealth_low_first : decodeTableWord 16 0x52A5 = some (.getHealth none) := by decide
theorem test_fetch_await : step (State.reset.withFetchWord 32 2) = exec .await State.reset := rfl
theorem test_fetch_startScan : step (State.reset.withFetchWord 16 0xA520) = exec (.startScan none) State.reset := rfl

/-! One step each. -/

/-- ENC_CTRL = 0x010002F0, PLBUF = 94 02, ENCODE running (vector E8). -/
def encoding : State :=
  { State.reset with
    seq := .enc, encCtrl := { opcode := 0xF0#8, len := 2#9, hasPayload := true },
    mem := [(0x100, 0x94#8), (0x101, 0x02#8)] }

/-- ENCODE running with HAS_PAYLOAD = 0 and LEN = 511 (vector E20). -/
def encodingShort : State :=
  { State.reset with seq := .enc, encCtrl := { opcode := 0x50#8, len := 511#9, hasPayload := false } }

/-- ENCODE running with HAS_PAYLOAD = 1 and the given length (vectors E12, E21a). -/
def encodingOf (len : BitVec 9) : State :=
  { State.reset with seq := .enc, encCtrl := { opcode := 0x50#8, len := len, hasPayload := true } }

/-- RXBUF[0..6] = A5 5A 05 00 00 40 81 (vector D1). -/
def descriptor : List Host.Cell :=
  [(0x400, 0xA5#8), (0x401, 0x5A#8), (0x402, 0x05#8), (0x403, 0x00#8), (0x404, 0x00#8), (0x405, 0x40#8), (0x406, 0x81#8)]

/-- RXBUF[0..1] = A5 5B. -/
def badDescriptor : List Host.Cell := [(0x400, 0xA5#8), (0x401, 0x5B#8)]

def parsing : State := { State.reset with seq := .dec, mem := descriptor }

/-- An AWAIT of 7 bytes with deadline 2, in a sequencer state, after some ticks and a last count. -/
def awaitingAt (q : Seq) (elapsed avail : Word) (offered : Bool) : State :=
  { State.reset with
    seq := q, rrN := 7#16, rrTimeout := 2#32, rrElapsed := elapsed, rrAvail := avail,
    chan := { cqValid := offered, outstanding := false, beats := 0 } }

def polling : State := awaitingAt .poll 0#32 0#32 true
def pollingLast : State := awaitingAt .poll 2#32 3#32 true
def waiting : State := awaitingAt .wait 1#32 3#32 false
def reading : State := awaitingAt .read 1#32 9#32 true

/-- The received bytes of vector A6. -/
def short : List Byte := [0xA5#8, 0x5A#8, 0x14#8, 0x00#8]

theorem test_encode_accepts : exec .encode State.reset = .next { State.reset with seq := .enc } := rfl
theorem test_encode_checksum : storedByte (encComplete encoding).mem 0x205 = some 0xC1#8 := by decide
theorem test_encode_length : (encComplete encoding).frameLen = 6#9 := by decide
theorem test_encode_ignores_len : (encComplete encodingShort).frameLen = 2#9 := by decide
theorem test_encode_too_long : (encComplete (encodingOf 256#9)).status.errCode = 1#4 := by decide
theorem test_decodeDesc_raw : (decComplete parsing).descRaw = 0x40000005#32 := by decide
theorem test_decodeDesc_info : readWord (decComplete parsing) 0x018 = 0x80810001#32 := by decide
theorem test_decodeDesc_sync : readWord (decComplete { parsing with mem := badDescriptor }) 0x004 = 0x00000206#32 := by decide
theorem test_await_range : exec .await { State.reset with rrN := 1025#16 } =
    .next { State.reset with rrN := 1025#16, status := { done := true, err := true, ovr := false, errCode := 6#4 } } := rfl
theorem test_await_timeout : readWord (pollStep 6#32 pollingLast) 0x004 = 0x00000406#32 := by decide
theorem test_await_at_deadline : (pollStep 7#32 pollingLast).seq = .read := by decide
theorem test_await_truncated : readWord (readStep short reading) 0x004 = 0x00000306#32 := by decide
theorem test_await_stores : storedByte (readStep short reading).mem 0x402 = some 0x14#8 := by decide
theorem test_await_drops_excess :
    storedByte (readStep (List.replicate 8 0x09#8) reading).mem 0x407 = none := by decide
theorem test_await_saturated_count : (pollStep 0xFFFFFFFF#32 polling).seq = .read := by decide
theorem test_tick_outside_wait : tickStep polling = polling := by decide
theorem test_rsvd3_status : readWord (hostWrite 0x000#11 0x00000007#32 State.reset) 0x004 = 0x00000506#32 := by decide
theorem test_setMotorPwm_payload :
    readWord (issueEncode 0xF0#8 (some [0x94#8, 0x02#8]) State.reset) 0x100 = 0x00000294#32 := by decide
theorem test_setMotorPwm_ctrl :
    readWord (issueEncode 0xF0#8 (some [0x94#8, 0x02#8]) State.reset) 0x008 = 0x010002F0#32 := by decide
theorem test_getInfo_ctrl : exec (.getInfo none) State.reset =
    .next { State.reset with seq := .enc, encCtrl := { opcode := 0x50#8, len := 0#9, hasPayload := false } } := rfl
theorem test_reset_command_is_not_reset : exec (.reset none) State.reset =
    .next { State.reset with seq := .enc, encCtrl := { opcode := 0x40#8, len := 0#9, hasPayload := false } } := rfl
theorem test_reserved_bits : readWord (hostWrite 0x008#11 0xFEFE0052#32 State.reset) 0x008 = 0x00000052#32 := by decide
theorem test_rr_n_reserved_bits : readWord (hostWrite 0x01C#11 0x00010007#32 State.reset) 0x01C = 0x00000007#32 := by decide
theorem test_busy_write : readWord (hostWrite 0x01C#11 5#32 polling) 0x004 = 0x00000009#32 := by decide
theorem test_frame_window_end : readWord State.reset 0x304 = 0x00000000#32 := by decide

/-! Witnesses: for each statement with hypotheses, a concrete input that meets all of them together, at the ends of the ranges
its clauses name. -/

theorem witness_DecodeInvertsEncode :
    (Instr.setMotorPwm longest).WellFormed ∧ (Instr.stop (some [])).WellFormed ∧ Instr.await.WellFormed :=
  ⟨test_longest_fits, by decide, by decide⟩

theorem witness_DecodedFramesAreEncodings :
    decode (.frame [0xA5#8, 0x50#8]) = .ok (.getInfo none) ∧
    (Instr.getInfo (some [])).WellFormed ∧
    encode (.getInfo (some [])) = .frame [0xA5#8, 0x50#8, 0x00#8, 0xF5#8] := by decide

theorem witness_CommandWordDecodedByOp :
    (0xFFFFFFFC#32 : Word).extractLsb' 0 2 = 0#2 ∧ (0x00000001#32 : Word).extractLsb' 0 2 = 1#2 ∧
    (0x80000002#32 : Word).extractLsb' 0 2 = 2#2 ∧ (0xFFFFFFFF#32 : Word).extractLsb' 0 2 = 3#2 := by decide

theorem witness_StepRunsDecodedInstruction :
    (∃ (s : State) (rest : List Event), s.schedule = fetchEvent (.cmdWord 2#32) :: rest ∧ decode (.cmdWord 2#32) = .ok .await) ∧
    (∃ (s : State) (rest : List Event), s.schedule = fetchEvent (.frame [0xA5#8, 0x25#8]) :: rest ∧
      decode (.frame [0xA5#8, 0x25#8]) = .ok (.stop none)) ∧
    (∃ (s : State) (rest : List Event), (0x003#11 : Addr).toNat / 4 = 0 ∧ s.schedule = .hostWrite 0x003#11 1#32 :: rest) ∧
    ∃ (s : State) (rest : List Event), s.schedule = fetchEvent (.frame [0xA5#8]) :: rest ∧ decode (.frame [0xA5#8]) = .error .tooShort :=
  ⟨⟨{ State.reset with schedule := [.hostWrite 0x000#11 2#32] }, [], rfl, rfl⟩,
    ⟨{ State.reset with schedule := [.deviceCommand [0xA5#8, 0x25#8], .tick] }, [.tick], rfl, rfl⟩,
    ⟨{ State.reset with schedule := [.hostWrite 0x003#11 1#32] }, [], by decide, rfl⟩,
    ⟨{ State.reset with schedule := [.deviceCommand [0xA5#8]] }, [], rfl, rfl⟩⟩

theorem witness_StepRefusesExactly :
    (∃ (s : State) (a : Addr) (d : Word) (rest : List Event), s.schedule = .busConflict a d :: rest) ∧
    (∃ (s : State) (rest : List Event), s.schedule = .deviceCommand [0xA5#8] :: rest ∧
      decodeFrame [0xA5#8] = .error .tooShort) ∧
    ∃ s : State, (∀ a d rest, s.schedule ≠ .busConflict a d :: rest) ∧
      ∀ bytes rest why, s.schedule = .deviceCommand bytes :: rest → decodeFrame bytes ≠ .error why :=
  ⟨⟨{ State.reset with schedule := [.busConflict 0x004#11 0#32] }, _, _, _, rfl⟩,
    ⟨{ State.reset with schedule := [.deviceCommand [0xA5#8]] }, [], rfl, rfl⟩,
    ⟨{ State.reset with schedule := [.tick] }, by rintro a d rest ⟨⟩, by rintro bytes rest why ⟨⟩⟩⟩

theorem witness_IdleBlockAcceptsHostCommands :
    State.reset.seq = .idle ∧ (0x003#11 : Addr).toNat / 4 = 0 ∧
    ({ State.reset with rrN := 1024#16 } : State).rrN.toNat ≤ 1024 ∧
    1024 < ({ State.reset with rrN := 1025#16 } : State).rrN.toNat := by decide

theorem witness_ReservedCommandCompletes :
    State.reset.seq = .idle ∧ (0x00000003#32 : Word).extractLsb' 0 2 = 3#2 := by decide

theorem witness_BusyWritesOnlySetOverrun : encoding.seq ≠ .idle ∧ waiting.seq ≠ .idle := by decide

theorem witness_OverrunFlagRule :
    (∃ t, stepEvent (.hostWrite 0x020#11 0#32) waiting = .next t ∧ waiting.seq ≠ .idle) ∧
    (∃ t, stepEvent (.hostWrite 0x003#11 0#32) State.reset = .next t ∧ State.reset.seq = .idle ∧
      (0x003#11 : Addr).toNat / 4 = 0) ∧
    (∃ t, stepEvent (.hostWrite 0x004#11 0#32) State.reset = .next t ∧ State.reset.seq = .idle ∧
      (0x004#11 : Addr).toNat / 4 ≠ 0) ∧
    (∃ t, stepEvent .encComplete encoding = .next t) ∧ ∃ t, stepEvent (.reset .quiet) encoding = .next t :=
  ⟨⟨_, rfl, by decide⟩, ⟨_, rfl, by decide, by decide⟩, ⟨_, rfl, by decide, by decide⟩, ⟨_, rfl⟩, ⟨_, rfl⟩⟩

theorem witness_EncodeWithoutPayload : encodingShort.seq = .enc ∧ encodingShort.encCtrl.hasPayload = false := by decide

theorem witness_EncodeWithPayload :
    (encodingOf 255#9).seq = .enc ∧ (encodingOf 255#9).encCtrl.hasPayload = true ∧
    (encodingOf 255#9).encCtrl.len.toNat ≤ 255 ∧ (encodingOf 0#9).encCtrl.len.toNat ≤ 255 := by decide

theorem witness_EncodeFailsExactlyOverLongPayload :
    (encodingOf 256#9).seq = .enc ∧ (encodingOf 256#9).encCtrl.hasPayload = true ∧
    255 < (encodingOf 256#9).encCtrl.len.toNat ∧ 255 < (encodingOf 511#9).encCtrl.len.toNat := by decide

theorem witness_EncodeEmptyPayload :
    (encodingOf 0#9).seq = .enc ∧ (encodingOf 0#9).encCtrl.hasPayload = true ∧ (encodingOf 0#9).encCtrl.len = 0#9 := by
  decide

theorem witness_PayloadFrameXorsToZero :
    encoding.seq = .enc ∧ encoding.encCtrl.hasPayload = true ∧ encoding.encCtrl.len.toNat ≤ 255 ∧
    ∃ t, stepEvent .encComplete encoding = .next t := ⟨by decide, by decide, by decide, _, rfl⟩

theorem witness_ChecksumSeesOneBitErrors :
    frame 0xF0#8 true 2 [0x94#8, 0x02#8] = some [0xA5#8, 0xF0#8, 0x02#8, 0x94#8, 0x02#8, 0xC1#8] ∧
    [0xA5#8, 0xF0#8, 0x02#8, 0x94#8, 0x02#8, 0xC1#8][5]? = some 0xC1#8 ∧
    [0xA5#8, 0xF0#8, 0x02#8, 0x94#8, 0x02#8, 0xC1#8][0]? = some 0xA5#8 := by decide

theorem witness_EncodeRunsToItsEnd : State.reset.seq = .idle := by decide

theorem witness_DecodeDescRunsToItsEnd :
    ({ State.reset with mem := descriptor } : State).seq = .idle ∧ storedByte descriptor 0x400 = some 0xA5#8 ∧
    storedByte descriptor 0x401 = some 0x5A#8 ∧ storedByte descriptor 0x406 = some 0x81#8 ∧
    storedByte badDescriptor 0x401 = some 0x5B#8 := by decide

theorem witness_DecodeDescFailureClearsFields :
    ({ parsing with mem := badDescriptor } : State).seq = .dec ∧
    ∃ t, stepEvent .decComplete { parsing with mem := badDescriptor } = .next t ∧ t.status.errCode ≠ 0#4 :=
  ⟨by decide, _, rfl, by decide⟩

theorem witness_DecodeDescTwiceGivesTheSame :
    ({ State.reset with mem := descriptor } : State).seq = .idle ∧
    ∀ i, i < 7 → (storedByte descriptor (0x400 + i)).isSome = true := by decide

theorem witness_PollTakesItsBranch :
    polling.seq = .poll ∧ polling.rrN.toNat ≤ (7#32 : Word).toNat ∧ (6#32 : Word).toNat < polling.rrN.toNat ∧
    pollingLast.rrTimeout.toNat ≤ pollingLast.rrElapsed.toNat ∧ polling.rrElapsed.toNat < polling.rrTimeout.toNat := by
  decide

theorem inv_waiting : Inv waiting := by constructor <;> decide
theorem inv_polling : Inv polling := by constructor <;> decide
theorem inv_reading : Inv reading := by constructor <;> decide

theorem witness_TickCountsOnlyInWait : (waiting.seq = .wait ∧ Inv waiting) ∧ polling.seq ≠ .wait :=
  ⟨⟨by decide, inv_waiting⟩, by decide⟩

theorem witness_ReadStoresWhatArrived :
    reading.seq = .read ∧ reading.chan.beats = 0 ∧ reading.rrN.toNat ≤ 1024 ∧
    ({ reading with rrN := 1024#16 } : State).rrN.toNat ≤ 1024 ∧ short.length < reading.rrN.toNat ∧
    reading.rrN.toNat ≤ (List.replicate 7 0x00#8).length := by decide

theorem witness_AwaitOfZeroBytes : State.reset.seq = .idle ∧ State.reset.rrN = 0#16 := by decide

/-- A deadline of 2: after 0 and 2 polls the next one is due, after 3 the command has ended. -/
theorem witness_DeadlineAfterAllPolls :
    ({ State.reset with rrN := 7#16, rrTimeout := 2#32 } : State).seq = .idle ∧
    ({ State.reset with rrN := 7#16, rrTimeout := 2#32 } : State).rrN.toNat ≤ 1024 ∧
    (∀ c ∈ [0#32, 3#32, (6#32 : Word)], c.toNat < ({ State.reset with rrN := 7#16 } : State).rrN.toNat) ∧
    [0#32, (3#32 : Word)].length ≤ ({ State.reset with rrTimeout := 2#32 } : State).rrTimeout.toNat ∧
    [0#32, 3#32, (6#32 : Word)].length = ({ State.reset with rrTimeout := 2#32 } : State).rrTimeout.toNat + 1 :=
  ⟨rfl, by decide, by simp, by decide, rfl⟩

/-- Vectors A2, A3 and A6. -/
theorem witness_AwaitIsItsReferenceAlgorithm :
    ({ State.reset with rrN := 7#16, rrTimeout := 2#32 } : State).seq = .idle ∧
    ({ State.reset with rrN := 7#16, rrTimeout := 2#32 } : State).rrN.toNat ≤ 1024 ∧
    awaitReference 7 2 [] 0 [0#32, 3#32, 6#32] = some { code := 4#4, ticks := 2, lastCount := 6#32, stored := [] } ∧
    awaitReference 7 2 (List.replicate 7 0x01#8) 0 [0#32, 0#32, 7#32] =
      some { code := 0#4, ticks := 2, lastCount := 7#32, stored := List.replicate 7 0x01#8 } ∧
    awaitReference 7 10 short 0 [9#32] = some { code := 3#4, ticks := 0, lastCount := 9#32, stored := short } := by
  decide

/-- A run to TIMEOUT and a run with a read, from an AWAIT of one byte with deadline 1. -/
theorem witness_AwaitChannelTraffic :
    ∃ s t : State, s.seq = .idle ∧ s.rrN.toNat ≤ 1024 ∧ exec .await s = .next t ∧
      (∃ u, (∀ e ∈ [Event.poll 0#32, .tick, .poll 0#32], isAwaitEvent e = true) ∧
        runEvents [.poll 0#32, .tick, .poll 0#32] t = .next u ∧ u.seq = .idle) ∧
      ∃ u, (∀ e ∈ [Event.tick, .poll 1#32, .hostWrite 0x01C#11 5#32, .read [0xA5#8]], isAwaitEvent e = true) ∧
        runEvents [.tick, .poll 1#32, .hostWrite 0x01C#11 5#32, .read [0xA5#8]] t = .next u ∧ u.seq = .idle :=
  ⟨{ State.reset with rrN := 1#16, rrTimeout := 1#32 }, _, rfl, by decide, rfl,
    ⟨_, by decide, rfl, by decide⟩, ⟨_, by decide, rfl, by decide⟩⟩

theorem witness_ReadBeatsRefineRead :
    reading.seq = .read ∧ reading.chan = { cqValid := true, outstanding := false, beats := 0 } := by decide

theorem witness_QueryBeatsRefinePoll :
    polling.seq = .poll ∧ polling.chan = { cqValid := true, outstanding := false, beats := 0 } := by decide

theorem witness_StrayResponsesAreDiscarded :
    State.reset.chan.outstanding = false ∧ reading.seq ≠ .poll ∧ polling.seq ≠ .read := by decide

theorem witness_RequestPortsFollowTheSequencer :
    (Inv polling ∧ cqValid polling = true) ∧ (Inv reading ∧ cqValid reading = true) ∧
    (Inv waiting ∧ waiting.seq ≠ .poll ∧ waiting.seq ≠ .read) ∧
    ∃ t, Inv polling ∧ cqValid polling = true ∧ stepEvent (.crBeat true 0x00#8 9#32) polling = .next t :=
  ⟨⟨inv_polling, by decide⟩, ⟨inv_reading, by decide⟩, ⟨inv_waiting, by decide, by decide⟩, _, inv_polling, by decide, rfl⟩

/-- One address for each clause, at the ends of the ranges. -/
theorem witness_HostWriteByOffset :
    polling.seq ≠ .idle ∧ State.reset.seq = .idle ∧
    0x000 = (0x003#11 : Addr).toNat / 4 * 4 ∧ 0x008 = (0x008#11 : Addr).toNat / 4 * 4 ∧
    0x01C = (0x01F#11 : Addr).toNat / 4 * 4 ∧ 0x020 = (0x020#11 : Addr).toNat / 4 * 4 ∧
    0x100 = (0x100#11 : Addr).toNat / 4 * 4 ∧ 0x1FC = (0x1FF#11 : Addr).toNat / 4 * 4 ∧
    0x400 = (0x400#11 : Addr).toNat / 4 * 4 ∧ 0x7FC = (0x7FF#11 : Addr).toNat / 4 * 4 ∧
    0x200 = (0x200#11 : Addr).toNat / 4 * 4 ∧ 0x3FC = (0x3FF#11 : Addr).toNat / 4 * 4 ∧
    0x004 = (0x004#11 : Addr).toNat / 4 * 4 ∧ 0x0FC = (0x0FF#11 : Addr).toNat / 4 * 4 := by decide

theorem witness_AddressLowBitsIgnored :
    (0x008#11 : Addr).extractLsb' 2 9 = (0x00B#11 : Addr).extractLsb' 2 9 := by decide

theorem witness_HostReadByOffset :
    State.reset.seq = .idle ∧ 0x030 = (0x030#11 : Addr).toNat / 4 * 4 ∧ 0x0FC = (0x0FF#11 : Addr).toNat / 4 * 4 ∧
    0x300 = (0x300#11 : Addr).toNat / 4 * 4 ∧ 0x7FC = (0x7FF#11 : Addr).toNat / 4 * 4 ∧
    storedByte [(0x302, 0x5A#8)] (0x300 + 2) = some 0x5A#8 ∧ 0x300 + 2 < 0x303 ∧
    0x303 ≤ 0x300 + 3 ∧ storedByte descriptor (0x400 + 0) = some 0xA5#8 := by decide

theorem witness_BusyReadsOfOtherRegistersAreExact :
    (∃ t, stepEvent (.hostRead 0x028#11) waiting = .next t ∧ 0x028 = (0x028#11 : Addr).toNat / 4 * 4 ∧
      waiting.seq ≠ .idle ∧ waiting.seq ≠ .enc ∧ waiting.seq ≠ .dec) ∧
    (∃ t, stepEvent (.hostRead 0x024#11) parsing = .next t ∧ parsing.seq ≠ .idle ∧ parsing.seq = .dec) ∧
    ∃ t, stepEvent (.hostRead 0x101#11) encoding = .next t ∧ encoding.seq ≠ .idle ∧
      storedByte encoding.mem (0x100 + 1) = some 0x02#8 :=
  ⟨⟨_, rfl, by decide⟩, ⟨_, rfl, by decide⟩, ⟨_, rfl, by decide⟩⟩

theorem witness_ReservedBitsIgnoreWritesAndReadZero : State.reset.seq = .idle := by decide

theorem witness_BufferWordReadsBack :
    State.reset.seq = .idle ∧ 0x100 ≤ (0x100#11 : Addr).toNat ∧ (0x1FF#11 : Addr).toNat < 0x200 ∧
    0x400 ≤ (0x400#11 : Addr).toNat := by decide

theorem witness_HostReadsAreIdempotent :
    ∃ s t u : State, s.seq = .idle ∧
      (∀ i, i < 4 → isStorage ((0x400#11 : Addr).toNat / 4 * 4 + i) = true →
        (storedByte s.mem ((0x400#11 : Addr).toNat / 4 * 4 + i)).isSome = true) ∧
      stepEvent (.hostRead 0x400#11) s = .next t ∧ stepEvent (.hostRead 0x400#11) t = .next u :=
  ⟨{ State.reset with mem := descriptor }, _, _, by decide, by decide, rfl, rfl⟩

theorem witness_PseudoOperationsAreTheirHostWrites :
    deviceOperands (.setMotorPwm (some [0x94#8, 0x02#8])) = some (0xF0#8, some [0x94#8, 0x02#8]) ∧
    State.reset.seq = .idle := by decide

theorem witness_DeviceCommandsStartEncode :
    deviceOperands (.getHealth none) = some (0x52#8, none) ∧
    deviceOperands (.setMotorPwm longest) = some (0xF0#8, longest) ∧ State.reset.seq = .idle := ⟨rfl, rfl, rfl⟩

theorem witness_DeviceCommandsBuildTheirFrames :
    (Instr.setMotorPwm (some [0x94#8, 0x02#8])).WellFormed ∧
    encode (.setMotorPwm (some [0x94#8, 0x02#8])) = .frame [0xA5#8, 0xF0#8, 0x02#8, 0x94#8, 0x02#8, 0xC1#8] ∧
    State.reset.seq = .idle := by decide

theorem witness_DeviceCommandsRejectLongPayload :
    deviceOperands (.stop tooLong) = some (0x25#8, some (List.replicate 256 0x00#8)) ∧
    255 < (List.replicate 256 0x00#8).length ∧ State.reset.seq = .idle := 
  ⟨rfl, by rw [List.length_replicate]; decide, rfl⟩

theorem witness_EveryStepKeepsInvariant :
    ∃ s t : State, Inv s ∧ s.schedule = [.tick] ∧ step s = .next t :=
  ⟨{ waiting with schedule := [.tick] }, _, { inv_waiting with }, rfl, rfl⟩

theorem witness_OperandsAreStableWhileBusy :
    ∃ s t : State, s.seq ≠ .idle ∧ s.seq = .dec ∧ step s = .next t ∧ ∀ bus rest, s.schedule ≠ .reset bus :: rest :=
  ⟨{ parsing with schedule := [.decComplete] }, _, by decide, by decide, rfl, by rintro bus rest ⟨⟩⟩

theorem witness_RunningCommandEndsByCompletionOrReset :
    (∃ s t : State, s.seq = .enc ∧ s.schedule = [.encComplete] ∧ step s = .next t ∧ t.seq = .idle) ∧
    (∃ s t : State, s.seq = .dec ∧ s.schedule = [.decComplete] ∧ step s = .next t ∧ t.seq = .idle) ∧
    (∃ s t : State, s.seq = .poll ∧ s.schedule = [.poll 6#32] ∧ step s = .next t ∧ t.seq = .idle) ∧
    (∃ s t : State, s.seq = .read ∧ s.schedule = [.read short] ∧ step s = .next t ∧ t.seq = .idle) ∧
    ∃ s t : State, s.seq ≠ .idle ∧ s.schedule = [.reset .quiet] ∧ step s = .next t ∧ t.seq = .idle :=
  ⟨⟨{ encoding with schedule := [.encComplete] }, _, by decide, rfl, rfl, by decide⟩,
    ⟨{ parsing with schedule := [.decComplete] }, _, by decide, rfl, rfl, by decide⟩,
    ⟨{ pollingLast with schedule := [.poll 6#32] }, _, by decide, rfl, rfl, by decide⟩,
    ⟨{ reading with schedule := [.read short] }, _, by decide, rfl, rfl, by decide⟩,
    ⟨{ waiting with schedule := [.reset .quiet] }, _, by decide, rfl, rfl, by decide⟩⟩

theorem witness_ResultsAreWrittenByTheirOwnCommand :
    (∃ t, stepEvent .encComplete encoding = .next t ∧ t.frameLen ≠ encoding.frameLen) ∧
    (∃ t, stepEvent .decComplete parsing = .next t ∧ t.descRaw ≠ parsing.descRaw) ∧
    (∃ t, stepEvent (.read short) reading = .next t ∧ t.rrGot ≠ reading.rrGot ∧
      storedByte t.mem 0x400 ≠ storedByte reading.mem 0x400) ∧
    (∃ t, stepEvent .tick waiting = .next t ∧ t.rrElapsed ≠ waiting.rrElapsed) ∧
    (∃ t, stepEvent (.poll 6#32) polling = .next t ∧ t.rrAvail ≠ polling.rrAvail) ∧
    ∃ s t : State, s.seq = .idle ∧ stepEvent (.hostWrite 0x003#11 2#32) s = .next t ∧ t.rrGot ≠ s.rrGot ∧
      t.rrElapsed ≠ s.rrElapsed ∧ t.rrAvail ≠ s.rrAvail :=
  ⟨⟨_, rfl, by decide⟩, ⟨_, rfl, by decide⟩, ⟨_, rfl, by decide, by decide⟩, ⟨_, rfl, by decide⟩, ⟨_, rfl, by decide⟩,
    { State.reset with rrGot := 7#16, rrElapsed := 1#32, rrAvail := 9#32 }, _, by decide, rfl, by decide, by decide,
    by decide⟩

theorem witness_ErrorRecordStaysUntilNextCommand :
    ∃ t, State.reset.seq = .idle ∧ stepEvent (.hostWrite 0x004#11 0#32) State.reset = .next t ∧
      (0x004#11 : Addr).toNat / 4 ≠ 0 := ⟨_, by decide, rfl, by decide⟩

theorem witness_WriteAndCompletionInEitherOrder :
    (∃ u, encoding.seq ≠ .idle ∧ stepEvent .encComplete encoding = .next u ∧ u.seq = .idle) ∧
    (∃ u, parsing.seq ≠ .idle ∧ stepEvent .decComplete parsing = .next u ∧ u.seq = .idle) ∧
    (∃ u, pollingLast.seq ≠ .idle ∧ stepEvent (.poll 6#32) pollingLast = .next u ∧ u.seq = .idle) ∧
    ∃ u, reading.seq ≠ .idle ∧ stepEvent (.read short) reading = .next u ∧ u.seq = .idle :=
  ⟨⟨_, by decide, rfl, by decide⟩, ⟨_, by decide, rfl, by decide⟩, ⟨_, by decide, rfl, by decide⟩,
    ⟨_, by decide, rfl, by decide⟩⟩

theorem witness_CompletionsOutsideTheirStateChangeNothing : parsing.seq ≠ .enc ∧ encoding.seq ≠ .dec := by decide

end Sys2Proof.Tests
end

/-! PROOFS. STATUS.OVR (R28) and a host write in the clock of a completion (R52). One fact serves both: no step of the
sequencer, the channel or the tick source looks at OVR, so each does the same whatever OVR holds, and leaves it there. -/

namespace Sys2Proof.Machine

/-- The state with OVR set to `v`; at `true` this is what a host write while busy leaves (R76). -/
def State.withOvr (v : Bool) (s : State) : State := { s with status := { s.status with ovr := v } }

@[simp] theorem State.withOvr_seq (v : Bool) (s : State) : (s.withOvr v).seq = s.seq := rfl
@[simp] theorem State.withOvr_chan (v : Bool) (s : State) : (s.withOvr v).chan = s.chan := rfl
@[simp] theorem State.withOvr_ovr (v : Bool) (s : State) : (s.withOvr v).status.ovr = v := rfl

theorem State.withOvr_self (s : State) : s.withOvr s.status.ovr = s := rfl

/-- A host write while busy sets OVR and does nothing else (R76). -/
theorem hostWrite_busy {s : State} (h : s.seq ≠ .idle) (a : Addr) (d : Word) : hostWrite a d s = s.withOvr true :=
  whenIdle_busy h _

/-- A step that neither reads nor writes OVR: setting OVR before it is setting OVR after it. -/
def IgnoresOvr (f : State → State) : Prop := ∀ (v : Bool) (s : State), f (s.withOvr v) = (f s).withOvr v

/-- A step that ignores OVR leaves it as it was. -/
theorem IgnoresOvr.ovr_eq {f : State → State} (hf : IgnoresOvr f) (s : State) : (f s).status.ovr = s.status.ovr := by
  have h := hf s.status.ovr s
  rw [State.withOvr_self] at h
  rw [h, State.withOvr_ovr]

theorem ignoresOvr_encComplete : IgnoresOvr encComplete := by
  intro v s
  by_cases h : s.seq = .enc
  · cases hr : encodeResult s with
    | none => rw [encComplete_fail h hr, encComplete_fail (s := s.withOvr v) h hr]; rfl
    | some r => rw [encComplete_ok h hr, encComplete_ok (s := s.withOvr v) h hr]; rfl
  · rw [encComplete_other h, encComplete_other (s := s.withOvr v) h]

theorem ignoresOvr_decComplete : IgnoresOvr decComplete := by
  intro v s
  by_cases h : s.seq = .dec
  · by_cases hb : descByte s 0 = 0xA5#8 ∧ descByte s 1 = 0x5A#8
    · obtain ⟨h0, h1⟩ := hb
      rw [decComplete_good h h0 h1, decComplete_good (s := s.withOvr v) h h0 h1]; rfl
    · rw [not_and_or] at hb
      rw [decComplete_bad h hb, decComplete_bad (s := s.withOvr v) h hb]; rfl
  · rw [decComplete_other h, decComplete_other (s := s.withOvr v) h]

theorem ignoresOvr_pollStep (c : Word) : IgnoresOvr (pollStep c) := by
  intro v s
  by_cases h : s.seq = .poll
  · rcases Nat.lt_or_ge c.toNat s.rrN.toNat with hc | hc
    · rcases Nat.lt_or_ge s.rrElapsed.toNat s.rrTimeout.toNat with ht | ht
      · rw [poll_wait h hc ht, poll_wait (s := s.withOvr v) h hc ht]; rfl
      · rw [poll_timeout h hc ht, poll_timeout (s := s.withOvr v) h hc ht]; rfl
    · rw [poll_read h hc, poll_read (s := s.withOvr v) h hc]; rfl
  · rw [poll_other h, poll_other (s := s.withOvr v) h]

theorem ignoresOvr_tickStep : IgnoresOvr tickStep := by
  intro v s
  by_cases h : s.seq = .wait
  · rw [tick_wait h, tick_wait (s := s.withOvr v) h]; rfl
  · rw [tick_other h, tick_other (s := s.withOvr v) h]

theorem ignoresOvr_readStep (d : List Byte) : IgnoresOvr (readStep d) := by
  intro v s
  by_cases h : s.seq = .read
  · rw [read_any h, read_any (s := s.withOvr v) h]; rfl
  · rw [read_other h, read_other (s := s.withOvr v) h]

theorem ignoresOvr_takeRequest : IgnoresOvr takeRequest := by
  intro v s
  by_cases h : s.chan.cqValid = true
  · simp [takeRequest, h, State.withOvr]
  · simp [takeRequest, h]

theorem ignoresOvr_responseBeat (last : Bool) (b : Byte) (c : Word) : IgnoresOvr (responseBeat last b c) := by
  intro v s
  by_cases ho : s.chan.outstanding = true
  · cases hq : s.seq
    case poll => cases last <;> simp [responseBeat, ho, hq, ignoresOvr_pollStep c v s]
    case read =>
      cases last
      · rw [beat_read_data hq ho, beat_read_data (s := s.withOvr v) hq ho]; rfl
      · rw [beat_read_last hq ho, beat_read_last (s := s.withOvr v) hq ho, ignoresOvr_readStep]
    all_goals simp [responseBeat, ho, hq]
  · rw [Bool.not_eq_true] at ho
    rw [beat_stray ho, beat_stray (s := s.withOvr v) ho]

/-- Acceptance of any host command clears OVR, also where the command completes at once (R101). -/
theorem accept_ovr (op : BitVec 2) (s : State) : (accept op s).status.ovr = false := by
  unfold accept acceptAwait
  split_ifs <;> rfl

theorem resetClock_ovr (bus : BusCycle) (s : State) : (resetClock bus s).status.ovr = false := by
  cases bus <;> rfl

/-- A write to CMD on an idle block accepts a command, which clears OVR (R28). -/
theorem hostWrite_cmd_ovr {s : State} (h : s.seq = .idle) {a : Addr} (ha : a.toNat / 4 = 0) (d : Word) :
    (hostWrite a d s).status.ovr = false := by
  rw [hostWrite, whenIdle_idle h, wordOffset_eq_zero.mpr ha]
  exact accept_ovr _ s

/-- A write elsewhere than CMD on an idle block keeps OVR (R28). -/
theorem hostWrite_other_ovr {s : State} (h : s.seq = .idle) {a : Addr} (ha : a.toNat / 4 ≠ 0) (d : Word) :
    (hostWrite a d s).status.ovr = s.status.ovr := by
  rw [hostWrite, whenIdle_idle h, writeIdle_status (mt wordOffset_eq_zero.mp ha)]

/-- Settles O10: a host write by its three cases, every other step because it ignores OVR. -/
theorem overrunFlagRule : Obligations.OverrunFlagRule := by
  refine ⟨fun s t a d h => ?_, fun s t e h he => ?_, fun s t bus h => ?_, rfl⟩
  · cases (stepEvent_hostWrite s a d).symm.trans h
    exact ⟨fun hs => hostWrite_busy hs a d, fun hs ha => hostWrite_cmd_ovr hs ha d,
      fun hs ha => hostWrite_other_ovr hs ha d⟩
  · obtain rfl | rfl | ⟨c, rfl⟩ | rfl | ⟨d, rfl⟩ | rfl | ⟨l, b, c, rfl⟩ | ⟨a, rfl⟩ := he <;> cases h
    · exact ignoresOvr_encComplete.ovr_eq s
    · exact ignoresOvr_decComplete.ovr_eq s
    · exact (ignoresOvr_pollStep c).ovr_eq s
    · exact ignoresOvr_tickStep.ovr_eq s
    · exact (ignoresOvr_readStep d).ovr_eq s
    · exact ignoresOvr_takeRequest.ovr_eq s
    · exact (ignoresOvr_responseBeat l b c).ovr_eq s
    · rfl
  · cases h
    exact resetClock_ovr bus s

/-- A completion's event takes a step that ignores OVR. -/
theorem completion_ignoresOvr {e : Event}
    (he : e = .encComplete ∨ e = .decComplete ∨ (∃ c, e = .poll c) ∨ ∃ r, e = .read r) :
    ∃ f, IgnoresOvr f ∧ ∀ s, stepEvent e s = .next (f s) := by
  obtain rfl | rfl | ⟨c, rfl⟩ | ⟨r, rfl⟩ := he
  · exact ⟨_, ignoresOvr_encComplete, stepEvent_encComplete⟩
  · exact ⟨_, ignoresOvr_decComplete, stepEvent_decComplete⟩
  · exact ⟨_, ignoresOvr_pollStep c, fun s => stepEvent_poll s c⟩
  · exact ⟨_, ignoresOvr_readStep r, fun s => stepEvent_read s r⟩

/-- A run of one event is the event's step. -/
theorem runEvents_singleton (e : Event) (s : State) : runEvents [e] s = stepEvent e s := by
  unfold runEvents
  cases stepEvent e s <;> rfl

/-- Settles O51: a write that comes first only sets OVR, which the completion ignores. -/
theorem writeAndCompletionInEitherOrder : Obligations.WriteAndCompletionInEitherOrder := by
  intro s u a d e hs he hu _
  obtain ⟨f, hf, hstep⟩ := completion_ignoresOvr he
  cases (hstep s).symm.trans hu
  refine ⟨?_, ?_, hf.ovr_eq s⟩
  · rw [runEvents_cons_next (stepEvent_hostWrite s a d), runEvents_singleton, hostWrite_busy hs, hstep, hf]
    rfl
  · rw [runEvents_cons_next hu, runEvents_singleton]

end Sys2Proof.Machine

/-! PROOFS. The host bus: a write by word offset (R76) and the address bits that no access looks at (R71). -/

namespace Sys2Proof.Machine

/-- The word offset of R71 in the words of the statements. -/
theorem wordOffset_eq (a : Addr) : wordOffset a = a.toNat / 4 * 4 := rfl

/-- The word offset depends on address bits [10:2] only (R71). -/
theorem wordOffset_eq_extractLsb' (a : Addr) : wordOffset a = (a.extractLsb' 2 9).toNat * 4 := by
  have ha : a.toNat / 4 < 2 ^ 9 := by have := a.isLt; omega
  rw [wordOffset_eq, BitVec.extractLsb'_toNat, Nat.shiftRight_eq_div_pow, Nat.mod_eq_of_lt ha]

/-- A write outside PLBUF and RXBUF and to no writable register has no effect (R76). -/
theorem writeIdle_ignored {o : Nat}
    (h : (0x200 ≤ o ∧ o < 0x400) ∨ (o < 0x100 ∧ o ≠ 0x000 ∧ o ≠ 0x008 ∧ o ≠ 0x01C ∧ o ≠ 0x020))
    (d : Word) (s : State) : writeIdle o d s = s := by
  have hbuf : ¬ (inPlbuf o || inRxbuf o) = true := by
    rw [Bool.or_eq_true, inPlbuf_iff, inRxbuf_iff]; omega
  unfold writeIdle
  rw [if_neg (by omega), if_neg (by omega), if_neg (by omega), if_neg (by omega), if_neg hbuf]

/-- A host write while idle is the write of R76 at the address's word offset. -/
theorem stepEvent_hostWrite_idle {s : State} (h : s.seq = .idle) (a : Addr) (d : Word) :
    stepEvent (.hostWrite a d) s = .next (writeIdle (wordOffset a) d s) := by
  rw [stepEvent_hostWrite, hostWrite, whenIdle_idle h]

/-- Settles O32: the busy guard, then `writeIdle` at each offset. -/
theorem hostWriteByOffset : Obligations.HostWriteByOffset := by
  intro s a d o ho
  refine ⟨fun hbusy => ?_, fun hidle => ?_⟩
  · rw [stepEvent_hostWrite, hostWrite_busy hbusy]; rfl
  · have h4 : o % 4 = 0 := by omega
    rw [stepEvent_hostWrite_idle hidle, wordOffset_eq, ← ho]
    refine ⟨?cmd, ?encCtrl, ?rrN, ?rrTimeout, ?buffer, ?ignored⟩
    case cmd => rintro rfl; exact (decodeCmd_accept d hidle).symm
    case encCtrl => rintro rfl; rfl
    case rrN => rintro rfl; rfl
    case rrTimeout => rintro rfl; rfl
    case buffer =>
      intro hbuf
      rw [writeIdle_buffer hbuf]
      exact ⟨_, rfl, rfl, storedByte_word hbuf h4 d⟩
    case ignored => intro hign; rw [writeIdle_ignored hign]

/-- Settles O33: both accesses use the address only through its word offset, and both are total. -/
theorem addressLowBitsIgnored : Obligations.AddressLowBitsIgnored := by
  intro s a a' d h
  have ho : wordOffset a = wordOffset a' := by
    rw [wordOffset_eq_extractLsb', wordOffset_eq_extractLsb', h]
  refine ⟨?_, ?_, ⟨_, stepEvent_hostWrite s a d⟩, ⟨_, stepEvent_hostRead s a⟩⟩
  · rw [stepEvent_hostWrite, stepEvent_hostWrite, hostWrite, hostWrite, ho]
  · rw [stepEvent_hostRead, stepEvent_hostRead, hostRead, hostRead, ho]

end Sys2Proof.Machine

/-! PROOFS. Encodings: the OP field of a command word (R103), the reserved command (R104), reserved register bits (R105), and
the frame that ENCODE builds around a payload (R111). -/

namespace Sys2Proof.Machine

/-- Settles O3: the four tests of `decodeCmd`, one for each value of OP. -/
theorem commandWordDecodedByOp : Obligations.CommandWordDecodedByOp := by
  intro w
  refine ⟨fun h => ?_, fun h => ?_, fun h => ?_, fun h => ?_⟩ <;> simp [decode, decodeCmd, h]

/-- The register at offset 0x004 is STATUS (R77). -/
theorem readWord_status (s : State) : readWord s 0x004 = statusWord s := rfl

/-- Acceptance of the reserved command on an idle block leaves its completion with error 5 and nothing else (R101, R104). -/
theorem accept_rsvd3 {s : State} (h : s.seq = .idle) :
    accept 3#2 s = { s with status := { done := true, err := true, ovr := false, errCode := 5#4 } } := by
  show { s with seq := .idle, status := _ } = _
  rw [← h]; rfl

/-- Settles O8: a word with OP 3 is accepted as the reserved command; STATUS is then read field by field. -/
theorem reservedCommandCompletes : Obligations.ReservedCommandCompletes := by
  intro s w hidle hop
  refine ⟨_, ?_, rfl, ?_⟩
  · rw [stepEvent_hostWrite_idle hidle, ← accept_rsvd3 hidle, ← hop]; rfl
  · rw [readWord_status, statusWord_append, busy, hidle]
    dsimp only
    decide

/-- Two words that an idle block takes alike at an address are taken alike there in every state (R76). -/
theorem stepEvent_hostWrite_congr {a : Addr} {d d' : Word} {s : State}
    (h : writeIdle (wordOffset a) d s = writeIdle (wordOffset a) d' s) :
    stepEvent (.hostWrite a d) s = stepEvent (.hostWrite a d') s := by
  rw [stepEvent_hostWrite, stepEvent_hostWrite, hostWrite, hostWrite, whenIdle, whenIdle, h]

/-- A mask whose field is all ones keeps the field. -/
theorem extractLsb'_and_of_allOnes {n k len : Nat} {d m : BitVec n} (h : m.extractLsb' k len = BitVec.allOnes len) :
    (d &&& m).extractLsb' k len = d.extractLsb' k len := by
  rw [BitVec.extractLsb'_and, h, BitVec.and_allOnes]

/-- The reserved bits of ENC_CTRL do not reach its fields (R105). -/
theorem encCtrlOf_mask (d : Word) : encCtrlOf (d &&& 0x0101FFFF#32) = encCtrlOf d := by
  unfold encCtrlOf
  rw [extractLsb'_and_of_allOnes (by decide), extractLsb'_and_of_allOnes (by decide), BitVec.getLsbD_and]
  simp

/-- ENC_CTRL's fields put back in a word are the word without its reserved bits (R30, R105). -/
theorem encCtrlWord_encCtrlOf (d : Word) : encCtrlWord (encCtrlOf d) = d &&& 0x0101FFFF#32 := by
  apply BitVec.eq_of_getLsbD_eq
  intro i hi
  simp only [encCtrlWord, encCtrlOf, BitVec.getLsbD_or, BitVec.getLsbD_and, BitVec.getLsbD_shiftLeft, BitVec.getLsbD_setWidth,
    BitVec.getLsbD_extractLsb', getLsbD_bit]
  interval_cases i <;> simp

/-- The 16 bits of RR_N put back in a word are the word without its reserved bits (R35, R105). -/
theorem setWidth_extractLsb'_low (d : Word) : (d.extractLsb' 0 16).setWidth 32 = d &&& 0x0000FFFF#32 := by
  apply BitVec.eq_of_getLsbD_eq
  intro i hi
  simp only [BitVec.getLsbD_and, BitVec.getLsbD_setWidth, BitVec.getLsbD_extractLsb']
  interval_cases i <;> simp

/-- Settles O36: each write uses only the fields, which the mask keeps; each read puts the fields back in a word. -/
theorem reservedBitsIgnoreWritesAndReadZero : Obligations.ReservedBitsIgnoreWritesAndReadZero := by
  intro s d
  refine ⟨stepEvent_hostWrite_congr ?cmd, stepEvent_hostWrite_congr ?encCtrl, stepEvent_hostWrite_congr ?rrN,
    fun hidle => ⟨?readEncCtrl, ?readRrN, ?readCmd⟩⟩
  case cmd =>
    show accept _ s = accept _ s
    rw [extractLsb'_and_of_allOnes (by decide)]
  case encCtrl =>
    show { s with encCtrl := _ } = { s with encCtrl := _ }
    rw [encCtrlOf_mask]
  case rrN =>
    show { s with rrN := _ } = { s with rrN := _ }
    rw [extractLsb'_and_of_allOnes (by decide)]
  case readEncCtrl =>
    exact ⟨_, _, stepEvent_hostWrite_idle hidle _ _, stepEvent_hostRead _ _, encCtrlWord_encCtrlOf d⟩
  case readRrN =>
    exact ⟨_, _, stepEvent_hostWrite_idle hidle _ _, stepEvent_hostRead _ _, setWidth_extractLsb'_low d⟩
  case readCmd => exact ⟨_, _, stepEvent_hostWrite_idle hidle _ _, stepEvent_hostRead _ _, rfl⟩

/-- A byte of a frame that was written to FRAMEBUF is stored at its place (R43). -/
theorem storedByte_frame_at {m : List Host.Cell} {f : List Byte} {i : Nat} (hf : f.length ≤ 259) (hi : i < f.length) :
    storedByte (writeBytes m 0x200 f) (0x200 + i) = f[i]? := by
  rw [storedByte_frame hf, if_pos (by omega), Nat.add_sub_cancel_left]

/-- A byte outside a frame that was written to FRAMEBUF is as before (R43). -/
theorem storedByte_frame_outside {m : List Host.Cell} {f : List Byte} {a : Nat} (hf : f.length ≤ 259)
    (ha : a < 0x200 ∨ 0x200 + f.length ≤ a) : storedByte (writeBytes m 0x200 f) a = storedByte m a := by
  rw [storedByte_frame hf, if_neg (by omega)]

/-- Settles O12: the frame is the wire frame of the opcode and the operand bytes, whose bytes are known by position. -/
theorem encodeWithPayload : Obligations.EncodeWithPayload := by
  intro s hseq hpay hlen
  have hp := length_payloadOperand s
  have hf := length_wireFrame_some s.encCtrl.opcode (payloadOperand s)
  have hmax : (wireFrame s.encCtrl.opcode (some (payloadOperand s))).length ≤ 259 := by omega
  obtain ⟨hsync, hop, hlenByte, hbytes, hsum⟩ := wireFrame_bytes s.encCtrl.opcode (payloadOperand s)
  refine ⟨payloadOperand s, _, hp, payloadOperand_stored s, stepEvent_encComplete s, ?_⟩
  rw [encComplete_ok hseq (encodeResult_payload hpay hlen), hf]
  refine ⟨rfl, ?_, ?_, ?_, fun i hi => ?_, ?_, fun a ha => storedByte_frame_outside hmax (by omega)⟩
  · exact (storedByte_frame_at (i := 0) hmax (by omega)).trans hsync
  · exact (storedByte_frame_at (i := 1) hmax (by omega)).trans hop
  · exact (storedByte_frame_at (i := 2) hmax (by omega)).trans hlenByte
  · rw [← hbytes i hi, ← storedByte_frame_at hmax (by omega), ← Nat.add_assoc]
  · rw [← hsum, ← storedByte_frame_at hmax (by omega), ← Nat.add_assoc]

end Sys2Proof.Machine

/-! PROOFS. ENCODE's other outcomes: no payload (R138), a payload that is too long (R133, R134), an empty one (R135). -/

namespace Sys2Proof.Machine

/-- Settles O11: the frame is the two-byte wire frame without payload, whatever LEN and PLBUF hold. -/
theorem encodeWithoutPayload : Obligations.EncodeWithoutPayload := by
  intro s hseq hpay
  have hf := length_wireFrame_none s.encCtrl.opcode
  have hmax : (wireFrame s.encCtrl.opcode none).length ≤ 259 := by omega
  refine ⟨_, stepEvent_encComplete s, ?_⟩
  rw [encComplete_ok hseq (encodeResult_none hpay), hf]
  refine ⟨rfl, ?_, ?_, fun a ha ha' => storedByte_frame_outside hmax (by omega)⟩
  · exact storedByte_frame_at (i := 0) hmax (by omega)
  · exact storedByte_frame_at (i := 1) hmax (by omega)

/-- The frame function gives a frame unless a payload over 255 bytes is supplied (R131, R133). -/
theorem exists_encodeResult {s : State} (h : ¬ (s.encCtrl.hasPayload = true ∧ 255 < s.encCtrl.len.toNat)) :
    ∃ r, encodeResult s = some r := by
  by_cases hpay : s.encCtrl.hasPayload = true
  · exact ⟨_, encodeResult_payload hpay (Nat.le_of_not_lt (not_and.mp h hpay))⟩
  · exact ⟨_, encodeResult_none (by simpa using hpay)⟩

/-- The register at offset 0x00C is FRAME_LEN, exact unless ENCODE runs (R54, R77). -/
theorem readWord_frameLen {s : State} (h : s.seq ≠ .enc) : readWord s 0x00C = s.frameLen.setWidth 32 := by
  show readRegister s 0x00C = _
  rw [readRegister_frameLen, decide_eq_false h]; rfl

/-- Settles O13: the error code is 1 where the frame function gives no frame, and 0 where it gives one. -/
theorem encodeFailsExactlyOverLongPayload : Obligations.EncodeFailsExactlyOverLongPayload := by
  intro s hseq
  refine ⟨_, stepEvent_encComplete s, ?_⟩
  by_cases hlong : s.encCtrl.hasPayload = true ∧ 255 < s.encCtrl.len.toNat
  · rw [encComplete_fail hseq (encodeResult_long hlong.1 hlong.2)]
    refine ⟨iff_of_true (by simp) hlong, fun _ _ => ⟨rfl, ?_⟩⟩
    rw [readWord_frameLen (by simp)]; rfl
  · obtain ⟨r, hr⟩ := exists_encodeResult hlong
    rw [encComplete_ok hseq hr]
    exact ⟨iff_of_false (by simp) hlong, fun hpay hlen => absurd ⟨hpay, hlen⟩ hlong⟩

/-- Settles O14: the frame of O12 around the empty payload. -/
theorem encodeEmptyPayload : Obligations.EncodeEmptyPayload := by
  intro s hseq hpay hlen
  have hlen0 : s.encCtrl.len.toNat = 0 := by rw [hlen]; rfl
  obtain ⟨p, t, hp, -, hstep, ht, hsync, hop, hlenByte, -, hsum, -⟩ := encodeWithPayload s hseq hpay (by omega)
  obtain rfl : p = [] := List.length_eq_zero_iff.mp (hp.trans hlen0)
  refine ⟨t, hstep, by rw [ht], by rw [ht]; rfl, hsync, hop, hlenByte, ?_⟩
  simpa using hsum

end Sys2Proof.Machine

/-! PROOFS. DECODE_DESC: the two sync checks and what a failure leaves (R153, R154), and a repeated run (R158). The results are
a function of STATUS and of the seven bytes read, so equal bytes give equal results. -/

namespace Sys2Proof.Machine

/-- The register at offset 0x010 is DESC_RAW, exact unless DECODE_DESC runs (R54, R77). -/
theorem readWord_descRaw {s : State} (h : s.seq ≠ .dec) : readWord s 0x010 = s.descRaw := by
  show fieldOr (decide (s.seq = .dec)) s.draws s.descRaw = _
  rw [decide_eq_false h]; rfl

/-- The register at offset 0x014 is DESC_LEN, exact unless DECODE_DESC runs (R54, R77). -/
theorem readWord_descLen {s : State} (h : s.seq ≠ .dec) : readWord s 0x014 = s.descLen.setWidth 32 := by
  show readRegister s 0x014 = _
  rw [readRegister_descLen, decide_eq_false h]; rfl

/-- The register at offset 0x018 is DESC_INFO, exact unless DECODE_DESC runs (R54, R77). -/
theorem readWord_descInfo {s : State} (h : s.seq ≠ .dec) : readWord s 0x018 = descInfoWord s.descInfo := by
  show descInfoWord (if s.seq = .dec then _ else s.descInfo) = _
  rw [if_neg h]

/-- Settles O19: the bytes are those that DecComplete reads; a mismatch ends in error 2 with every field 0, two matches end in
code 0. -/
theorem decodeDescFailureClearsFields : Obligations.DecodeDescFailureClearsFields := by
  intro s hdec
  refine ⟨descByte s 0, descByte s 1, _, fun x hx => descByte_stored hx, fun x hx => descByte_stored hx,
    stepEvent_decComplete s, ?_⟩
  by_cases hbad : descByte s 0 ≠ 0xA5#8 ∨ descByte s 1 ≠ 0x5A#8
  · rw [decComplete_bad hdec hbad]
    refine ⟨iff_of_true rfl hbad, fun _ => ⟨rfl, rfl, ?_, ?_, ?_⟩⟩
    · rw [readWord_descRaw (by simp)]
    · rw [readWord_descLen (by simp)]; rfl
    · rw [readWord_descInfo (by simp)]; dsimp only; decide
  · obtain ⟨h0, h1⟩ : descByte s 0 = 0xA5#8 ∧ descByte s 1 = 0x5A#8 := by simpa using hbad
    rw [decComplete_good hdec h0 h1]
    exact ⟨iff_of_false (by simp) hbad, fun hcode => absurd rfl hcode⟩

/-- DecComplete in two states that agree on STATUS and on the seven bytes read gives the same results, and keeps everything
that is no result but the draws (R151, R158). -/
theorem decComplete_congr {s t : State} (hs : s.seq = .dec) (ht : t.seq = .dec) (hstatus : t.status = s.status)
    (hbytes : ∀ i, i < 7 → descByte t i = descByte s i) :
    decComplete t = { t with
      seq := .idle, status := (decComplete s).status, descRaw := (decComplete s).descRaw,
      descLen := (decComplete s).descLen, descInfo := (decComplete s).descInfo, draws := (decComplete t).draws } := by
  have h0 := hbytes 0 (by decide)
  have h1 := hbytes 1 (by decide)
  by_cases hbad : descByte s 0 ≠ 0xA5#8 ∨ descByte s 1 ≠ 0x5A#8
  · rw [decComplete_bad hs hbad, decComplete_bad ht (by rwa [h0, h1]), hstatus]
  · obtain ⟨hs0, hs1⟩ : descByte s 0 = 0xA5#8 ∧ descByte s 1 = 0x5A#8 := by simpa using hbad
    have hword : descWord t = descWord s := by
      rw [descWord, hbytes 2 (by decide), hbytes 3 (by decide), hbytes 4 (by decide), hbytes 5 (by decide), descWord]
    rw [decComplete_good hs hs0 hs1, decComplete_good ht (h0.trans hs0) (h1.trans hs1), hstatus, hword,
      hbytes 6 (by decide)]

/-- A descriptor byte that was written is read alike in all states with the same buffers, whatever their draws (R89). -/
theorem descByte_congr {s t : State} {i : Nat} (hmem : t.mem = s.mem)
    (h : (storedByte s.mem (0x400 + i)).isSome = true) : descByte t i = descByte s i := by
  obtain ⟨x, hx⟩ := Option.isSome_iff_exists.mp h
  rw [descByte_stored hx, descByte_stored (hmem ▸ hx)]

/-- DECODE_DESC on an idle block run to its end: what DecComplete makes of the accepted state. -/
def decodeDescRun (s : State) : State := decComplete (acceptDecodeDesc s)

/-- The two steps of DECODE_DESC on an idle block (R150, R151). -/
theorem exec_decComplete_decodeDesc {s : State} (hidle : s.seq = .idle) :
    exec .decodeDesc s = .next (acceptDecodeDesc s) ∧
      stepEvent .decComplete (acceptDecodeDesc s) = .next (decodeDescRun s) :=
  ⟨exec_decodeDesc_idle hidle, stepEvent_decComplete _⟩

/-- Two runs of DECODE_DESC that read the same bytes give the same results and STATUS, whatever STATUS was before; and a run
changes nothing else but the draws (R158). -/
theorem decodeDescRun_congr {s t : State} (hidle : t.seq = .idle)
    (hbytes : ∀ i, i < 7 → descByte (acceptDecodeDesc t) i = descByte (acceptDecodeDesc s) i) :
    decodeDescRun t = { t with
      status := (decodeDescRun s).status, descRaw := (decodeDescRun s).descRaw, descLen := (decodeDescRun s).descLen,
      descInfo := (decodeDescRun s).descInfo, draws := (decodeDescRun t).draws } := by
  rw [hidle]
  exact decComplete_congr (s := acceptDecodeDesc s) (t := acceptDecodeDesc t) rfl rfl rfl hbytes

/-- Settles O20: a run keeps what is no result, RXBUF among it, so the second run reads the same bytes. -/
theorem decodeDescTwiceGivesTheSame : Obligations.DecodeDescTwiceGivesTheSame := by
  intro s hidle
  obtain ⟨haccept, hcomplete⟩ := exec_decComplete_decodeDesc hidle
  have hframe := decodeDescRun_congr hidle fun i _ => rfl
  refine ⟨_, _, haccept, hcomplete, hframe, fun hwritten => ?_⟩
  have hidle' : (decodeDescRun s).seq = .idle := by rw [hframe, hidle]
  have hmem : (decodeDescRun s).mem = s.mem := by rw [hframe]
  obtain ⟨haccept', hcomplete'⟩ := exec_decComplete_decodeDesc hidle'
  exact ⟨_, _, haccept', hcomplete', decodeDescRun_congr hidle' fun i hi => descByte_congr hmem (hwritten i hi)⟩

end Sys2Proof.Machine

/-! PROOFS. AWAIT: what a whole read response leaves (R176). -/

namespace Sys2Proof.Machine

/-- A byte of a response that was written to RXBUF is stored at its place (R44, R176). -/
theorem storedByte_rx_at {m : List Host.Cell} {f : List Byte} {i : Nat} (hf : f.length ≤ 1024) (hi : i < f.length) :
    storedByte (writeBytes m 0x400 f) (0x400 + i) = f[i]? := by
  rw [storedByte_rx hf, if_pos (by omega), Nat.add_sub_cancel_left]

/-- A byte outside a response that was written to RXBUF is as before (R44, R176). -/
theorem storedByte_rx_outside {m : List Host.Cell} {f : List Byte} {a : Nat} (hf : f.length ≤ 1024)
    (ha : a < 0x400 ∨ 0x400 + f.length ≤ a) : storedByte (writeBytes m 0x400 f) a = storedByte m a := by
  rw [storedByte_rx hf, if_neg (by omega)]

/-- A count that RX_BYTES bounds fits RR_GOT (R37). -/
theorem toNat_ofNat_rrGot {k : Nat} (h : k ≤ 1024) : (BitVec.ofNat 16 k).toNat = k :=
  Nat.mod_eq_of_lt (by omega)

/-- Settles O23: the response stored is `d.take n`, whose bytes are known by position. -/
theorem readStoresWhatArrived : Obligations.ReadStoresWhatArrived := by
  intro s d hseq hbeats hn
  have hlen : (d.take s.rrN.toNat).length = min d.length s.rrN.toNat := by rw [List.length_take, Nat.min_comm]
  have hmax : (d.take s.rrN.toNat).length ≤ 1024 := by omega
  refine ⟨_, stepEvent_read s d, fun hoffer => ?_, ?_⟩
  · rw [cqN_offered hoffer, cqKind_offered hoffer, hseq]; exact ⟨rfl, rfl⟩
  · rw [read_whole hseq hbeats]
    refine ⟨rfl, toNat_ofNat_rrGot (by omega), fun i hi => ?_, fun a ha => storedByte_rx_outside hmax (by omega),
      fun hshort => ?_, fun hfull => ?_⟩
    · exact (storedByte_rx_at hmax (by omega)).trans (List.getElem?_take_of_lt (by omega))
    · rw [if_pos hshort]; rfl
    · rw [if_neg (by omega)]; rfl

end Sys2Proof.Machine

/-! PROOFS. AWAIT from its acceptance to its end: the deadline (R174) and the reference algorithm (R172). Both follow the
states in which a query is due, which differ only in RR_ELAPSED and RR_AVAIL; each round of the loop leads from one to the
next, or to a state that no answer to a query and no tick changes. -/

namespace Sys2Proof.Machine

/-- A tick count that a deadline bounds fits RR_ELAPSED (R38). -/
theorem toNat_ofNat_rrElapsed {t : Nat} {T : Word} (h : t ≤ T.toNat) : (BitVec.ofNat 32 t).toNat = t :=
  Nat.mod_eq_of_lt (h.trans_lt T.isLt)

/-- AWAIT accepted in `s`, with a query due after `t` ticks and `a` the last count sampled (R51, R171). -/
def queryDue (s : State) (t : Nat) (a : Word) : State :=
  { s with
    status := Status.accepted, rrGot := 0#16, rrElapsed := BitVec.ofNat 32 t, rrAvail := a, seq := .poll,
    chan := Channel.offered }

/-- AWAIT accepted in `s` and ended as `r` says (R172, R176, R222). -/
def awaitEnded (s : State) (r : AwaitResult) : State :=
  { s with
    seq := .idle, status := Status.accepted.completed r.code, rrElapsed := BitVec.ofNat 32 r.ticks,
    rrAvail := r.lastCount, rrGot := BitVec.ofNat 16 r.stored.length, mem := writeBytes s.mem 0x400 r.stored,
    chan := Channel.quiet }

@[simp] theorem queryDue_seq (s : State) (t : Nat) (a : Word) : (queryDue s t a).seq = .poll := rfl
@[simp] theorem awaitEnded_seq (s : State) (r : AwaitResult) : (awaitEnded s r).seq = .idle := rfl

/-- An accepted AWAIT has its first query due at once (R171). -/
theorem exec_await_queryDue {s : State} (hidle : s.seq = .idle) (hn : s.rrN.toNat ≤ 1024) :
    exec .await s = .next (queryDue s 0 0#32) := exec_await_idle hidle hn

section Rounds
variable {s : State} {t : Nat} {a c : Word}

theorem queryDue_elapsed (ht : t ≤ s.rrTimeout.toNat) : (queryDue s t a).rrElapsed.toNat = t :=
  toNat_ofNat_rrElapsed ht

/-- The query due finds enough (R173). -/
theorem stepEvent_poll_queryDue_enough (hc : s.rrN.toNat ≤ c.toNat) :
    stepEvent (.poll c) (queryDue s t a) = .next { queryDue s t c with seq := .read } := by
  rw [stepEvent_poll, poll_read (queryDue_seq s t a) hc]; rfl

/-- The query due finds too few before the deadline, and a tick follows: the next one is due (R173, R175). -/
theorem runEvents_poll_tick_queryDue {es : List Event} (hc : c.toNat < s.rrN.toNat) (ht : t < s.rrTimeout.toNat) :
    runEvents (.poll c :: .tick :: es) (queryDue s t a) = runEvents es (queryDue s (t + 1) c) := by
  have helapsed : (queryDue s t a).rrElapsed.toNat < s.rrTimeout.toNat := (queryDue_elapsed ht.le).trans_lt ht
  rw [poll_tick (queryDue_seq s t a) hc helapsed, queryDue, queryDue, BitVec.ofNat_add]

/-- The query due at the deadline finds too few (R173, R174). -/
theorem stepEvent_poll_queryDue_timeout (hc : c.toNat < s.rrN.toNat) (ht : t = s.rrTimeout.toNat) :
    stepEvent (.poll c) (queryDue s t a) =
      .next (awaitEnded s { code := 4#4, ticks := t, lastCount := c, stored := [] }) := by
  have helapsed : (queryDue s t a).rrElapsed.toNat = s.rrTimeout.toNat := (queryDue_elapsed ht.le).trans ht
  rw [stepEvent_poll, poll_timeout (queryDue_seq s t a) hc helapsed.ge]; rfl

end Rounds

/-- The read that follows the last query ends the command (R176). -/
theorem stepEvent_read_queryDue (s : State) (t : Nat) (c : Word) (d : List Byte) :
    stepEvent (.read d) { queryDue s t c with seq := .read } =
      .next (awaitEnded s
        { code := if min d.length s.rrN.toNat < s.rrN.toNat then 3#4 else 0#4, ticks := t, lastCount := c,
          stored := d.take s.rrN.toNat }) := by
  have hshort : min d.length s.rrN.toNat < s.rrN.toNat ↔ d.length < s.rrN.toNat := by omega
  rw [stepEvent_read, read_whole rfl rfl, awaitEnded, if_congr hshort rfl rfl, List.length_take, Nat.min_comm]
  rfl

/-- In a state that neither awaits a query's answer nor waits, the rest of the schedule of polls is stray (R115, R175). -/
theorem runEvents_tick_pollSchedule_stray {s : State} (hpoll : s.seq ≠ .poll) (hwait : s.seq ≠ .wait) (cs : List Word)
    (es : List Event) : runEvents (.tick :: (pollSchedule cs ++ es)) s = runEvents es s := by
  rw [runEvents_cons_next (stepEvent_tick _), tick_other hwait]
  induction cs with
  | nil => rfl
  | cons c cs ih =>
    rw [pollSchedule, List.cons_append, List.cons_append, runEvents_cons_next (stepEvent_poll _ _), poll_other hpoll,
      runEvents_cons_next (stepEvent_tick _), tick_other hwait, ih]

/-- As long as the polls find too few and the deadline is not past, each leads to the next query (R174). -/
theorem runEvents_pollSchedule_low {s : State} {t : Nat} {a : Word} {cs : List Word}
    (hlow : ∀ c ∈ cs, c.toNat < s.rrN.toNat) (ht : t + cs.length ≤ s.rrTimeout.toNat) :
    runEvents (pollSchedule cs) (queryDue s t a) = .next (queryDue s (t + cs.length) (cs.getLastD a)) := by
  induction cs generalizing t a with
  | nil => rfl
  | cons c cs ih =>
    obtain ⟨hc, hcs⟩ := List.forall_mem_cons.mp hlow
    rw [List.length_cons] at ht ⊢
    rw [pollSchedule, runEvents_poll_tick_queryDue hc (by omega), ih hcs (by omega), Nat.add_assoc,
      Nat.add_comm 1, List.getLastD_cons]

/-- Settles O25: the first T polls lead to the query due at the deadline, and the last one ends there with TIMEOUT. -/
theorem deadlineAfterAllPolls : Obligations.DeadlineAfterAllPolls := by
  intro s cs hidle hn hlow
  refine ⟨_, exec_await_queryDue hidle hn, fun hlen => ?_, fun hlen => ?_⟩
  · refine ⟨_, runEvents_pollSchedule_low hlow (by omega), rfl, ?_, fun c hc => ?_⟩
    · rw [Nat.zero_add]; exact queryDue_elapsed hlen
    · exact ⟨_, stepEvent_poll_queryDue_enough hc, rfl⟩
  · obtain rfl | ⟨init, last, rfl⟩ := cs.eq_nil_or_concat'
    · simp at hlen
    · obtain ⟨hinit, hlast⟩ := List.forall_mem_append.mp hlow
      have hT : 0 + init.length = s.rrTimeout.toNat := by simpa using hlen
      refine ⟨awaitEnded s { code := 4#4, ticks := 0 + init.length, lastCount := last, stored := [] }, ?_,
        ⟨rfl, rfl⟩, rfl, ?_, by simp [awaitEnded], rfl, rfl⟩
      · rw [pollSchedule_append, runEvents_append (runEvents_pollSchedule_low hinit hT.le), pollSchedule,
          runEvents_cons_next (stepEvent_poll_queryDue_timeout (hlast last (by simp)) hT)]
        exact runEvents_tick_pollSchedule_stray (by simp) (by simp) [] []
      · rw [awaitEnded, hT]; simp

/-- What the reference algorithm stores fits the count asked for, and it waits no longer than the deadline (R172, R174). -/
theorem awaitReference_bounds {n T t : Nat} {d : List Byte} {cs : List Word} {r : AwaitResult} (ht : t ≤ T)
    (h : awaitReference n T d t cs = some r) : r.stored.length ≤ n ∧ r.ticks ≤ T := by
  induction cs generalizing t with
  | nil => cases h
  | cons c cs ih =>
    rw [awaitReference] at h
    split at h
    · cases h; exact ⟨List.length_take_le _ _, ht⟩
    · split at h
      · cases h; exact ⟨Nat.zero_le _, ht⟩
      · exact ih (by omega) h

/-- From a query due after `t` ticks, the run ends as the reference algorithm from tick count `t` on does (R172). -/
theorem runEvents_of_awaitReference {s : State} {t : Nat} {a : Word} {cs : List Word} {d : List Byte} {r : AwaitResult}
    (ht : t ≤ s.rrTimeout.toNat) (h : awaitReference s.rrN.toNat s.rrTimeout.toNat d t cs = some r) :
    runEvents (pollSchedule cs ++ [.read d]) (queryDue s t a) = .next (awaitEnded s r) := by
  induction cs generalizing t a with
  | nil => cases h
  | cons c cs ih =>
    rw [awaitReference] at h
    simp only [pollSchedule, List.cons_append]
    split at h
    case isTrue henough =>
      cases h
      rw [runEvents_cons_next (stepEvent_poll_queryDue_enough henough),
        runEvents_tick_pollSchedule_stray (by simp) (by simp), runEvents_singleton, stepEvent_read_queryDue]
    case isFalse hfew =>
      split at h
      case isTrue hdeadline =>
        cases h
        rw [runEvents_cons_next (stepEvent_poll_queryDue_timeout (by omega) (by omega)),
          runEvents_tick_pollSchedule_stray (by simp) (by simp), runEvents_singleton, stepEvent_read, read_other (by simp)]
      case isFalse hearly =>
        rw [runEvents_poll_tick_queryDue (by omega) (by omega)]
        exact ih (by omega) h

/-- Settles O26: the run ends in the state that the algorithm's result determines, whose fields are read off. -/
theorem awaitIsItsReferenceAlgorithm : Obligations.AwaitIsItsReferenceAlgorithm := by
  intro s cs d r hidle hn href
  obtain ⟨hstored, hticks⟩ := awaitReference_bounds (Nat.zero_le _) href
  have hmax : r.stored.length ≤ 1024 := hstored.trans hn
  refine ⟨_, _, exec_await_queryDue hidle hn, runEvents_of_awaitReference (Nat.zero_le _) href, ⟨rfl, rfl⟩, rfl, rfl,
    toNat_ofNat_rrElapsed hticks, rfl, toNat_ofNat_rrGot hmax, fun i hi => storedByte_rx_at hmax hi,
    fun a ha => storedByte_rx_outside hmax ha, ?_⟩
  rw [awaitEnded, hidle]; rfl

end Sys2Proof.Machine

/-! PROOFS. Encodings: decoding inverts encoding, and nothing but an encoding decodes (R103, R110, R111, R120). -/

namespace Sys2Proof.Machine

/-- Settles O1: a host command by its OP field, a device command by its frame read back. -/
theorem decodeInvertsEncode : Obligations.DecodeInvertsEncode := by
  intro i hwf
  cases i
  case encode => rfl
  case decodeDesc => rfl
  case await => rfl
  case rsvd3 => rfl
  all_goals exact decodeFrame_wire _ _ hwf _ rfl

theorem deviceOperands_of_deviceInstr {op : Byte} {p : Option (List Byte)} {i : Instr} (h : deviceInstr op p = some i) :
    deviceOperands i = some (op, p) := by
  unfold deviceInstr at h
  split_ifs at h <;> cases h <;> subst op <;> rfl

/-- What decodes as a frame is the wire frame of a device command with a payload that fits (R110, R111, R120). -/
theorem decodeFrame_ok {bytes : List Byte} {i : Instr} (h : decodeFrame bytes = .ok i) :
    ∃ op p, bytes = wireFrame op p ∧ payloadFits p = true ∧ deviceInstr op p = some i := by
  unfold decodeFrame at h
  split at h
  case h_1 sync op rest =>
    split at h
    · cases h
    · next hsync =>
      obtain rfl : sync = Config.sync1 := not_not.mp hsync
      split at h
      · cases h
      · next p hp =>
        obtain ⟨hfits, hframe⟩ := decodePayload_ok hp
        split at h
        · next i' hi' => cases h; exact ⟨op, p, hframe.symm, hfits, hi'⟩
        · cases h
  case h_2 => cases h

/-- Settles O2: a frame that decodes is the wire frame of its opcode and payload; the converse is O1. -/
theorem decodedFramesAreEncodings : Obligations.DecodedFramesAreEncodings := by
  intro bytes i
  constructor
  · intro h
    obtain ⟨op, p, rfl, hfits, hinstr⟩ := decodeFrame_ok h
    exact deviceInstr_wire hinstr hfits
  · rintro ⟨hwf, henc⟩
    rw [← henc]
    exact decodeInvertsEncode i hwf

/-- Settles O4: fixed words, decoded. -/
theorem writtenWordsDecode : Obligations.WrittenWordsDecode := by
  unfold Obligations.WrittenWordsDecode
  decide

end Sys2Proof.Machine

/-! PROOFS. One step: what it runs (R24, R51, R119), what it refuses (R237), what it does while a command runs (R76), and the
events that change nothing (R51, R115). -/

namespace Sys2Proof.Machine

theorem eventAction_fetchEvent (words : Encoding) : eventAction (fetchEvent words) = .inl words := by
  cases words <;> rfl

theorem popEvent_cons {s : State} {e : Event} {rest : List Event} (h : s.schedule = e :: rest) :
    popEvent s = { s with schedule := rest } := by
  rw [popEvent, h, List.tail_cons]

/-- A step that has a next state is the empty schedule's, or its first event's. -/
theorem step_next {s t : State} (h : step s = .next t) :
    (s.schedule = [] ∧ t = s) ∨ ∃ e rest, s.schedule = e :: rest ∧ stepEvent e (popEvent s) = .next t := by
  cases hs : s.schedule with
  | nil => cases (step_nil hs).symm.trans h; exact .inl ⟨rfl, rfl⟩
  | cons e rest => exact .inr ⟨e, rest, rfl, (step_eq_stepEvent hs).symm.trans h⟩

/-- A device command that has a next state is the host writes of its pseudo-operation (R119). -/
theorem stepEvent_deviceCommand_next {bytes : List Byte} {s t : State} (h : stepEvent (.deviceCommand bytes) s = .next t) :
    ∃ op p, t = issueEncode op p s := by
  cases hd : decodeFrame bytes with
  | error why => rw [stepEvent_undecodable (words := .frame bytes) rfl hd] at h; cases h
  | ok i =>
    rw [stepEvent_deviceCommand s hd] at h
    obtain ⟨op, p, -, -, hinstr⟩ := decodeFrame_ok hd
    rw [exec_device (deviceOperands_of_deviceInstr hinstr)] at h
    cases h
    exact ⟨op, p, rfl⟩

/-- What an event that has a next state does, by the state it meets: the steps of R51 where they are enabled, a host write
or device command on a busy or an idle block, a reset clock, or nothing. -/
inductive Effect (s : State) : Event → State → Prop
  | stray {e : Event} (hreset : ∀ bus, e ≠ .reset bus) (hquery : answersQuery s e = false)
      (hread : answersRead s e = false) : Effect s e s
  | overrun {e : Event} (hbusy : s.seq ≠ .idle)
      (he : (∃ a d, e = .hostWrite a d) ∨ ∃ bytes, e = .deviceCommand bytes) :
      Effect s e (s.withOvr true)
  | write (hidle : s.seq = .idle) (a : Addr) (d : Word) : Effect s (.hostWrite a d) (writeIdle (wordOffset a) d s)
  | device (hidle : s.seq = .idle) (bytes : List Byte) (op : Byte) (p : Option (List Byte)) :
      Effect s (.deviceCommand bytes) (issueEncode op p s)
  | hostRead (a : Addr) : Effect s (.hostRead a) (hostRead a s)
  | take (h : s.chan.cqValid = true) :
      Effect s .cqReady { s with chan := { s.chan with cqValid := false, outstanding := true } }
  | encComplete (h : s.seq = .enc) : Effect s .encComplete (encComplete s)
  | decComplete (h : s.seq = .dec) : Effect s .decComplete (decComplete s)
  | poll {e : Event} (h : s.seq = .poll) (c : Word)
      (he : e = .poll c ∨ s.chan.outstanding = true ∧ ∃ b, e = .crBeat true b c) : Effect s e (pollStep c s)
  | tick (h : s.seq = .wait) : Effect s .tick (tickStep s)
  | read (h : s.seq = .read) (d : List Byte) : Effect s (.read d) (readStep d s)
  | lastBeat (h : s.seq = .read) (hout : s.chan.outstanding = true) (b : Byte) (c : Word) :
      Effect s (.crBeat true b c) (readStep [] s)
  | dataBeat (h : s.seq = .read) (hout : s.chan.outstanding = true) (b : Byte) (c : Word) :
      Effect s (.crBeat false b c) (dataBeat b s)
  | reset (bus : BusCycle) : Effect s (.reset bus) (resetClock bus s)

theorem effect_hostWrite (s : State) (a : Addr) (d : Word) : Effect s (.hostWrite a d) (hostWrite a d s) := by
  by_cases hidle : s.seq = .idle
  · rw [hostWrite, whenIdle_idle hidle]; exact .write hidle a d
  · rw [hostWrite_busy hidle]; exact .overrun hidle (.inl ⟨a, d, rfl⟩)

theorem effect_issueEncode (s : State) (bytes : List Byte) (op : Byte) (p : Option (List Byte)) :
    Effect s (.deviceCommand bytes) (issueEncode op p s) := by
  by_cases hidle : s.seq = .idle
  · exact .device hidle bytes op p
  · rw [issueEncode, hostWrites_busy _ hidle (encodeWrites_ne_nil op p)]; exact .overrun hidle (.inr ⟨bytes, rfl⟩)

theorem effect_responseBeat (s : State) (last : Bool) (b : Byte) (c : Word) :
    Effect s (.crBeat last b c) (responseBeat last b c s) := by
  by_cases hout : s.chan.outstanding = true
  · cases hseq : s.seq
    case poll =>
      cases last
      · rw [show responseBeat false b c s = s by simp [responseBeat, hseq]]
        exact .stray nofun rfl rfl
      · rw [beat_poll_last hseq hout]
        exact .poll hseq c (.inr ⟨hout, b, rfl⟩)
    case read =>
      cases last
      · rw [beat_read_data hseq hout]; exact .dataBeat hseq hout b c
      · rw [beat_read_last hseq hout]; exact .lastBeat hseq hout b c
    all_goals
      rw [show responseBeat last b c s = s by simp [responseBeat, hseq]]
      exact .stray nofun rfl rfl
  · rw [beat_stray (by simpa using hout)]; exact .stray nofun rfl rfl

theorem effect_encComplete (s : State) : Effect s .encComplete (encComplete s) := by
  by_cases h : s.seq = .enc
  · exact .encComplete h
  · rw [encComplete_other h]; exact .stray nofun rfl rfl

theorem effect_decComplete (s : State) : Effect s .decComplete (decComplete s) := by
  by_cases h : s.seq = .dec
  · exact .decComplete h
  · rw [decComplete_other h]; exact .stray nofun rfl rfl

theorem effect_pollStep (s : State) (c : Word) : Effect s (.poll c) (pollStep c s) := by
  by_cases h : s.seq = .poll
  · exact .poll h c (.inl rfl)
  · rw [poll_other h]; exact .stray nofun (decide_eq_false h) rfl

theorem effect_tickStep (s : State) : Effect s .tick (tickStep s) := by
  by_cases h : s.seq = .wait
  · exact .tick h
  · rw [tick_other h]; exact .stray nofun rfl rfl

theorem effect_readStep (s : State) (d : List Byte) : Effect s (.read d) (readStep d s) := by
  by_cases h : s.seq = .read
  · exact .read h d
  · rw [read_other h]; exact .stray nofun rfl (decide_eq_false h)

theorem effect_takeRequest (s : State) : Effect s .cqReady (takeRequest s) := by
  by_cases h : s.chan.cqValid = true
  · rw [takeRequest, if_pos h]; exact .take h
  · rw [takeRequest, if_neg h]; exact .stray nofun rfl rfl

/-- Every event that has a next state has one of these effects. -/
theorem effect_of_stepEvent {e : Event} {s t : State} (h : stepEvent e s = .next t) : Effect s e t := by
  cases e
  case hostWrite a d => cases (stepEvent_hostWrite s a d).symm.trans h; exact effect_hostWrite s a d
  case hostRead a => cases h; exact .hostRead a
  case deviceCommand bytes =>
    obtain ⟨op, p, rfl⟩ := stepEvent_deviceCommand_next h
    exact effect_issueEncode s bytes op p
  case encComplete => cases h; exact effect_encComplete s
  case decComplete => cases h; exact effect_decComplete s
  case poll c => cases h; exact effect_pollStep s c
  case tick => cases h; exact effect_tickStep s
  case read d => cases h; exact effect_readStep s d
  case cqReady => cases h; exact effect_takeRequest s
  case crBeat last b c => cases h; exact effect_responseBeat s last b c
  case reset bus => cases h; exact .reset bus
  case busConflict => cases h

/-- Settles O5: the first event's words are decoded and run on the state without it. -/
theorem stepRunsDecodedInstruction : Obligations.StepRunsDecodedInstruction := by
  intro s rest
  refine ⟨fun words i hs hd => ?_, fun a d ha hs => ?_, fun words why hs hd => ?_⟩
  · rw [step_instr hs (eventAction_fetchEvent words) hd, popEvent_cons hs]
  · have hcmd : eventAction (.hostWrite a d) = .inl (.cmdWord d) := if_pos (wordOffset_eq_zero.mpr ha)
    rw [step_instr hs hcmd rfl, popEvent_cons hs]
  · exact step_undecodable hs (eventAction_fetchEvent words) hd

/-- An event that is neither a bus conflict nor undecodable bytes has a next state (R237). -/
theorem exists_stepEvent_next {e : Event} (s : State) (hbus : ∀ a d, e ≠ .busConflict a d)
    (hdev : ∀ bytes why, e = .deviceCommand bytes → decodeFrame bytes ≠ .error why) :
    ∃ t, stepEvent e s = .next t := by
  cases e
  case hostWrite a d => exact ⟨_, stepEvent_hostWrite s a d⟩
  case deviceCommand bytes =>
    cases hd : decodeFrame bytes with
    | ok i => rw [stepEvent_deviceCommand s hd]; exact exec_next i s
    | error why => exact absurd hd (hdev bytes why rfl)
  case busConflict a d => exact absurd rfl (hbus a d)
  all_goals exact ⟨_, rfl⟩

/-- Settles O6: by the schedule's first event, if it has one. -/
theorem stepRefusesExactly : Obligations.StepRefusesExactly := by
  intro s
  refine ⟨fun a d rest hs => ?_, fun bytes rest why hs hd => step_undecodable hs rfl hd, fun hbus hdev => ?_⟩
  · rw [step_eq_stepEvent hs, stepEvent_busConflict]
  · cases hs : s.schedule with
    | nil => exact ⟨s, step_nil hs⟩
    | cons e rest =>
      rw [step_eq_stepEvent hs]
      exact exists_stepEvent_next _ (fun a d he => hbus a d rest (he ▸ hs))
        (fun bytes why he => hdev bytes rest why (he ▸ hs))

/-- Settles O9: the guard of a host write, and every instruction is made of guarded writes. -/
theorem busyWritesOnlySetOverrun : Obligations.BusyWritesOnlySetOverrun := by
  intro s hbusy
  refine ⟨fun a d => ?_, exec_busy hbusy⟩
  rw [stepEvent_hostWrite, hostWrite_busy hbusy]; rfl

/-- Settles O30: each such event takes a step that is disabled. -/
theorem strayResponsesAreDiscarded : Obligations.StrayResponsesAreDiscarded := by
  refine fun s => ⟨fun last b c hout => ?_, fun c hseq => ?_, fun d hseq => ?_⟩
  · rw [stepEvent_crBeat, beat_stray hout]
  · rw [stepEvent_poll, poll_other hseq]
  · rw [stepEvent_read, read_other hseq]

/-- Settles O52: each completion's guard. -/
theorem completionsOutsideTheirStateChangeNothing : Obligations.CompletionsOutsideTheirStateChangeNothing := by
  refine fun s => ⟨fun hseq => ?_, fun hseq => ?_⟩
  · rw [stepEvent_encComplete, encComplete_other hseq]
  · rw [stepEvent_decComplete, decComplete_other hseq]

end Sys2Proof.Machine

/-! PROOFS. The invariant: it holds after reset, and every event that has a next state keeps it. The steps that end a command
share one lemma (`inv_completed`); each other step has a lemma for each of its branches. -/

namespace Sys2Proof.Machine

/-- Settles O45: each clause is a fact about the reset values. -/
theorem resetStateMeetsInvariant : Obligations.ResetStateMeetsInvariant where
  memWf := wf_nil
  errIff := by decide
  codeProduced := by decide
  codeDone := by decide
  busyNotDone := by decide
  code1 := by decide
  code2 := by decide
  code4 := by decide
  frameLenForm := by decide
  descLenOf := by decide
  modeOf := by decide
  singleOf := by decide
  invalidClear := by decide
  awaitBounds := by decide
  waitBounds := by decide
  readBounds := by decide
  gotBound := by decide
  chanBusy := by decide
  chanOne := by decide
  beatsOfRead := by decide

/-- A reset clock leaves the reset state with the buffers as they were, so it needs only their form (R250). -/
theorem inv_resetClock {s : State} (hi : Inv s) (bus : BusCycle) : Inv (resetClock bus s) := by
  have hreset : Inv State.reset := resetStateMeetsInvariant
  cases bus <;> exact inv_frame (inv_mem hreset hi.memWf) _ _ _

/-- What ENCODE builds from its operands: no frame for a supplied payload over 255 bytes, else the wire frame (R131). -/
theorem encodeResult_cases (s : State) :
    (s.encCtrl.hasPayload = true ∧ 255 < s.encCtrl.len.toNat ∧ encodeResult s = none) ∨
    (s.encCtrl.hasPayload = false ∧ encodeResult s = some (wireFrame s.encCtrl.opcode none)) ∨
    (s.encCtrl.hasPayload = true ∧ s.encCtrl.len.toNat ≤ 255 ∧
      encodeResult s = some (wireFrame s.encCtrl.opcode (some (payloadOperand s)))) := by
  cases hpay : s.encCtrl.hasPayload with
  | false => exact .inr (.inl ⟨rfl, encodeResult_none hpay⟩)
  | true =>
    rcases Nat.lt_or_ge 255 s.encCtrl.len.toNat with hlong | hfits
    · exact .inl ⟨rfl, hlong, encodeResult_long hpay hlong⟩
    · exact .inr (.inr ⟨rfl, hfits, encodeResult_payload hpay hfits⟩)

/-- A frame's length fits FRAME_LEN (R31, R116). -/
theorem toNat_ofNat_frameLen {n : Nat} (h : n ≤ 259) : (BitVec.ofNat 9 n).toNat = n :=
  Nat.mod_eq_of_lt (by omega)

/-- The frame ENCODE builds has 2 bytes, or 4 to 259 (R116). -/
theorem encodeResult_length_form {s : State} {r : List Byte} (hr : encodeResult s = some r) :
    r.length = 2 ∨ (4 ≤ r.length ∧ r.length ≤ 259) := by
  obtain ⟨-, -, h⟩ | ⟨-, h⟩ | ⟨-, hlen, h⟩ := encodeResult_cases s <;> cases h.symm.trans hr
  · exact .inl (length_wireFrame_none _)
  · rw [length_wireFrame_some, length_payloadOperand]; omega

section Invariant
variable {s : State} (hi : Inv s)
include hi

/-- No error is recorded while a command runs (R29, R101). -/
theorem errCode_of_busy (h : s.seq ≠ .idle) : s.status.errCode = 0#4 := hi.codeDone (hi.busyNotDone h)

/-- Outside POLL and READ the channel is quiet (R40, R49). -/
theorem chan_quiet (hpoll : s.seq ≠ .poll) (hread : s.seq ≠ .read) : s.chan = Channel.quiet := by
  obtain ⟨hbusy, hbeats⟩ := quiet_chan hi hpoll hread
  obtain ⟨hvalid, hout⟩ := Bool.or_eq_false_iff.mp hbusy
  cases hc : s.chan
  rw [hc] at hvalid hout hbeats
  cases hvalid; cases hout; cases hbeats; rfl

/-- A command that ends with code `e`, the results written that an AWAIT's end writes (R222). -/
theorem inv_completed {e : BitVec 4} {m : List Host.Cell} {g : BitVec 16} (c : Word) (he : e.toNat ≤ 6)
    (h1 : e = 1#4 → s.frameLen = 0#9) (h2 : e = 2#4 → s.descInfo.valid = false) (h4 : e = 4#4 → g = 0#16)
    (hm : Memory.wf m) (hg : g.toNat ≤ Config.rxBytes) :
    Inv { s with
      seq := .idle, status := s.status.completed e, mem := m, rrGot := g, rrAvail := c, chan := Channel.quiet } :=
  { hi with
    memWf := hm
    errIff := rfl
    codeProduced := he
    codeDone := by simp
    busyNotDone := by simp
    code1 := h1
    code2 := h2
    code4 := h4
    awaitBounds := by simp
    waitBounds := by simp
    readBounds := by simp
    gotBound := hg
    chanBusy := rfl
    chanOne := rfl
    beatsOfRead := by simp [Channel.quiet] }

/-- A command that ends outside POLL and READ writes none of AWAIT's results (R222). -/
theorem inv_complete {e : BitVec 4} (hpoll : s.seq ≠ .poll) (hread : s.seq ≠ .read) (he : e.toNat ≤ 6)
    (h1 : e = 1#4 → s.frameLen = 0#9) (h2 : e = 2#4 → s.descInfo.valid = false) (h4 : e = 4#4 → s.rrGot = 0#16) :
    Inv (complete e s) := by
  have h := inv_completed hi s.rrAvail he h1 h2 h4 hi.memWf hi.gotBound
  rw [← chan_quiet hi hpoll hread] at h
  exact h

/-- A command that succeeds outside POLL and READ (R222). -/
theorem inv_succeeded (hpoll : s.seq ≠ .poll) (hread : s.seq ≠ .read) : Inv (complete 0#4 s) :=
  inv_complete hi hpoll hread (by decide) (by simp) (by simp) (by simp)

/-- FRAME_LEN may be written while a command runs, when no error is recorded (R31). -/
theorem inv_frameLen {n : BitVec 9} (hbusy : s.seq ≠ .idle)
    (hn : n.toNat = 0 ∨ n.toNat = 2 ∨ (4 ≤ n.toNat ∧ n.toNat ≤ Config.frameMax)) : Inv { s with frameLen := n } :=
  have hcode := errCode_of_busy hi hbusy
  { hi with
    code1 := fun h => absurd (hcode.symm.trans h) (by decide)
    frameLenForm := hn }

/-- The descriptor registers cleared (R154). -/
theorem inv_descCleared : Inv { s with
    descRaw := 0#32, descLen := 0#30, descInfo := { mode := 0#2, single := false, type := 0#8, valid := false } } :=
  { hi with
    code2 := fun _ => rfl
    descLenOf := (by decide : 0#30 = (0#32).extractLsb' 0 30)
    modeOf := (by decide : 0#2 = (0#32).extractLsb' 30 2)
    singleOf := rfl
    invalidClear := fun _ => ⟨rfl, rfl⟩ }

/-- The descriptor registers written from one length-and-mode word, while a command runs (R151). -/
theorem inv_descWritten (hbusy : s.seq ≠ .idle) (w : Word) (tag : Byte) :
    Inv { s with descRaw := w, descLen := w.extractLsb' 0 30, descInfo := descInfoFor w tag } :=
  have hcode := errCode_of_busy hi hbusy
  { hi with
    code2 := fun h => absurd (hcode.symm.trans h) (by decide)
    descLenOf := rfl
    modeOf := rfl
    singleOf := (Bool.true_and _).symm
    invalidClear := by simp [descInfoFor] }

theorem inv_encComplete (h : s.seq = .enc) : Inv (encComplete s) := by
  have hpoll : s.seq ≠ .poll := by simp [h]
  have hread : s.seq ≠ .read := by simp [h]
  have hbusy : s.seq ≠ .idle := by simp [h]
  cases hr : encodeResult s with
  | none =>
    rw [encComplete_fail h hr]
    have hfail := inv_frameLen hi (n := 0#9) hbusy (.inl rfl)
    exact inv_complete (e := 1#4) hfail hpoll hread (by decide) (fun _ => rfl) (by simp) (by simp)
  | some r =>
    rw [encComplete_ok h hr]
    have hform := encodeResult_length_form hr
    rw [← toNat_ofNat_frameLen (n := r.length) (by omega)] at hform
    have hlen := inv_frameLen hi hbusy (.inr hform)
    exact inv_succeeded (inv_frame (inv_mem hlen (wf_writeBytes _ _ hi.memWf)) _ _ _) hpoll hread

theorem inv_decComplete (h : s.seq = .dec) : Inv (decComplete s) := by
  have hpoll : s.seq ≠ .poll := by simp [h]
  have hread : s.seq ≠ .read := by simp [h]
  have hbusy : s.seq ≠ .idle := by simp [h]
  by_cases hbad : descByte s 0 ≠ 0xA5#8 ∨ descByte s 1 ≠ 0x5A#8
  · rw [decComplete_bad h hbad]
    exact inv_complete (e := 2#4) (inv_frame (inv_descCleared hi) _ _ _) hpoll hread (by decide) (by simp)
      (fun _ => rfl) (by simp)
  · obtain ⟨h0, h1⟩ : descByte s 0 = 0xA5#8 ∧ descByte s 1 = 0x5A#8 := by simpa using hbad
    rw [decComplete_good h h0 h1]
    exact inv_succeeded (inv_frame (inv_descWritten hi hbusy _ _) _ _ _) hpoll hread

/-- A running AWAIT that goes on: the state it enters, its count and its ticks, and the request it offers there (R40, R173,
R175). -/
theorem inv_awaiting {q : Seq} {el av : Word} {ch : Channel} (hawait : awaiting s.seq = true)
    (hel : el.toNat ≤ s.rrTimeout.toNat) (hwait : q = .wait → el.toNat < s.rrTimeout.toNat ∧ av.toNat < s.rrN.toNat)
    (hread : q = .read → s.rrN.toNat ≤ av.toNat)
    (hchan : q = .wait ∧ ch = Channel.quiet ∨ (q = .poll ∨ q = .read) ∧ ch = Channel.offered) :
    Inv { s with seq := q, rrElapsed := el, rrAvail := av, chan := ch } :=
  have hbusy : s.seq ≠ .idle := fun h => by simp [h] at hawait
  have hdone := hi.busyNotDone hbusy
  have ⟨hn, _, hgot⟩ := hi.awaitBounds hawait
  { hi with
    busyNotDone := fun _ => hdone
    awaitBounds := fun _ => ⟨hn, hel, hgot⟩
    waitBounds := hwait
    readBounds := hread
    chanBusy := by obtain ⟨rfl, rfl⟩ | ⟨rfl | rfl, rfl⟩ := hchan <;> rfl
    chanOne := by obtain ⟨-, rfl⟩ | ⟨-, rfl⟩ := hchan <;> rfl
    beatsOfRead := by obtain ⟨-, rfl⟩ | ⟨-, rfl⟩ := hchan <;> exact absurd rfl }

theorem inv_pollStep (h : s.seq = .poll) (c : Word) : Inv (pollStep c s) := by
  have hawait : awaiting s.seq = true := by rw [h]; rfl
  obtain ⟨-, hel, hgot⟩ := hi.awaitBounds hawait
  rcases Nat.lt_or_ge c.toNat s.rrN.toNat with hfew | henough
  · rcases Nat.lt_or_ge s.rrElapsed.toNat s.rrTimeout.toNat with hearly | hlate
    · rw [poll_wait h hfew hearly]
      exact inv_awaiting hi hawait hel (fun _ => ⟨hearly, hfew⟩) nofun (.inl ⟨rfl, rfl⟩)
    · rw [poll_timeout h hfew hlate]
      exact inv_completed hi c (by decide) (by simp) (by simp) (fun _ => hgot) hi.memWf hi.gotBound
  · rw [poll_read h henough]
    exact inv_awaiting hi hawait hel nofun (fun _ => henough) (.inr ⟨.inr rfl, rfl⟩)

theorem inv_tickStep (h : s.seq = .wait) : Inv (tickStep s) := by
  have hawait : awaiting s.seq = true := by rw [h]; rfl
  obtain ⟨hearly, -⟩ := hi.waitBounds h
  have hel : (s.rrElapsed + 1#32).toNat ≤ s.rrTimeout.toNat := by rw [elapsed_succ hearly]; omega
  rw [tick_wait h]
  exact inv_awaiting hi hawait hel nofun nofun (.inr ⟨.inl rfl, rfl⟩)

theorem inv_readStep (h : s.seq = .read) (d : List Byte) : Inv (readStep d s) := by
  obtain ⟨hn, -, -⟩ := hi.awaitBounds (by rw [h]; rfl)
  have hcount : receivedCount s d ≤ 1024 := (Nat.min_le_right _ _).trans hn
  have hgot : (BitVec.ofNat 16 (receivedCount s d)).toNat ≤ Config.rxBytes := by
    rw [toNat_ofNat_rrGot hcount]; exact hcount
  rw [read_any h]
  refine inv_completed hi s.rrAvail ?_ ?_ ?_ ?_ (wf_writeBytes _ _ hi.memWf) hgot <;> split <;> simp

/-- An offered request taken: in POLL or READ, and no data beat has come (R49, R114). -/
theorem inv_taken (h : s.chan.cqValid = true) :
    Inv { s with chan := { s.chan with cqValid := false, outstanding := true } } := by
  obtain ⟨hseq, hout⟩ := offered_chan hi h
  have hbeats : s.chan.beats = 0 := by
    by_contra hb
    simpa [hout] using (hi.beatsOfRead hb).2
  exact { hi with
    chanBusy := (decide_eq_true hseq).symm
    chanOne := rfl
    beatsOfRead := fun hb => absurd hbeats hb }

theorem inv_dataBeat (b : Byte) (hseq : s.seq = .read) (hout : s.chan.outstanding = true) : Inv (dataBeat b s) :=
  { hi with
    memWf := wf_writeBytes _ _ hi.memWf
    beatsOfRead := fun _ => ⟨hseq, hout⟩ }

/-- The record of the last command may be cleared in any state (R101). -/
theorem inv_clearStatus : Inv (clearStatus s) :=
  { hi with
    errIff := rfl
    codeProduced := Nat.zero_le _
    codeDone := fun _ => rfl
    busyNotDone := fun _ => rfl
    code1 := by simp
    code2 := by simp
    code4 := by simp }

section Idle
variable (hidle : s.seq = .idle)
include hidle

/-- ENCODE or DECODE_DESC accepted on an idle block: the channel stays quiet (R101). -/
theorem inv_started {q : Seq} (hq : q = .enc ∨ q = .dec) : Inv { clearStatus s with seq := q } := by
  have hchan := chan_quiet hi (by simp [hidle]) (by simp [hidle])
  exact { inv_clearStatus hi with
    busyNotDone := fun _ => rfl
    awaitBounds := by obtain rfl | rfl := hq <;> nofun
    waitBounds := by obtain rfl | rfl := hq <;> nofun
    readBounds := by obtain rfl | rfl := hq <;> nofun
    chanBusy := by obtain rfl | rfl := hq <;> simp [hchan, Channel.quiet]
    beatsOfRead := by simp [hchan, Channel.quiet] }

/-- A command that ends in its own acceptance, with an error that promises nothing of the results (R104, R171). -/
theorem inv_rejected {e : BitVec 4} (he : e = 5#4 ∨ e = 6#4) : Inv (complete e (clearStatus s)) := by
  have hpoll : (clearStatus s).seq ≠ .poll := by simp [hidle]
  have hread : (clearStatus s).seq ≠ .read := by simp [hidle]
  obtain rfl | rfl := he
  · exact inv_complete (inv_clearStatus hi) hpoll hread (by decide) (by simp) (by simp) (by simp)
  · exact inv_complete (inv_clearStatus hi) hpoll hread (by decide) (by simp) (by simp) (by simp)

theorem inv_acceptAwait : Inv (acceptAwait s) := by
  rcases Nat.lt_or_ge Config.rxBytes (awaitN s) with hlong | hfits
  · rw [acceptAwait, if_pos hlong]
    exact inv_rejected hi hidle (.inr rfl)
  · rw [acceptAwait_ok hfits]
    exact { inv_clearStatus hi with
      busyNotDone := fun _ => rfl
      code4 := fun _ => rfl
      awaitBounds := fun _ => ⟨hfits, Nat.zero_le _, rfl⟩
      waitBounds := nofun
      readBounds := nofun
      gotBound := Nat.zero_le _
      chanBusy := rfl
      chanOne := rfl
      beatsOfRead := absurd rfl }

theorem inv_accept (op : BitVec 2) : Inv (accept op s) := by
  unfold accept
  split_ifs
  · exact inv_started hi hidle (.inl rfl)
  · exact inv_started hi hidle (.inr rfl)
  · exact inv_acceptAwait hi hidle
  · exact inv_rejected hi hidle (.inl rfl)

theorem inv_writeIdle (o : Nat) (d : Word) : Inv (writeIdle o d s) := by
  unfold writeIdle
  split_ifs
  · exact inv_accept hi hidle _
  · exact inv_operand hi hidle _ _ _
  · exact inv_operand hi hidle _ _ _
  · exact inv_operand hi hidle _ _ _
  · exact inv_mem hi (wf_writeBytes _ _ hi.memWf)
  · exact hi

end Idle

theorem inv_hostWrite (a : Addr) (d : Word) : Inv (hostWrite a d s) := by
  rcases whenIdle_cases (writeIdle (wordOffset a) d) s with ⟨hidle, h⟩ | ⟨-, h⟩
  · rw [hostWrite, h]; exact inv_writeIdle hi hidle _ _
  · rw [hostWrite, h]; exact inv_overrun hi

end Invariant

theorem inv_hostWrites (ws : List (Addr × Word)) {s : State} (hi : Inv s) : Inv (hostWrites ws s) := by
  induction ws generalizing s with
  | nil => exact hi
  | cons w ws ih => exact ih (inv_hostWrite hi _ _)

/-- Every event that has a next state keeps the invariant. -/
theorem inv_stepEvent {e : Event} {s t : State} (hi : Inv s) (h : stepEvent e s = .next t) : Inv t := by
  cases effect_of_stepEvent h with
  | stray => exact hi
  | overrun => exact inv_overrun hi
  | write hidle a d => exact inv_writeIdle hi hidle _ d
  | device => exact inv_hostWrites _ hi
  | hostRead a => exact inv_frame hi _ _ _
  | take hvalid => exact inv_taken hi hvalid
  | encComplete hseq => exact inv_encComplete hi hseq
  | decComplete hseq => exact inv_decComplete hi hseq
  | poll hseq c => exact inv_pollStep hi hseq c
  | tick hseq => exact inv_tickStep hi hseq
  | read hseq d => exact inv_readStep hi hseq d
  | lastBeat hseq => exact inv_readStep hi hseq []
  | dataBeat hseq hout b => exact inv_dataBeat hi b hseq hout
  | reset bus => exact inv_resetClock hi bus

/-- Settles O46: by the step's first event, each of which keeps the invariant. -/
theorem everyStepKeepsInvariant : Obligations.EveryStepKeepsInvariant := by
  intro s t hi h
  obtain ⟨-, rfl⟩ | ⟨e, rest, -, he⟩ := step_next h
  · exact hi
  · exact inv_stepEvent (inv_frame hi _ _ _) he

end Sys2Proof.Machine

/-! PROOFS. ENCODE and DECODE_DESC to their ends: what the checksum of a frame detects (R136, R137), and what each command
leaves when it is run from an idle block (R112, R132, R140, R150, R151). -/

namespace Sys2Proof.Machine

/-- A payload frame ends in the exclusive or of the bytes before it, so its bytes XOR to 0 (R131). -/
theorem xorBytes_frame {op : Byte} {len : Nat} {p f : List Byte} (h : frame op true len p = some f) : xorBytes f = 0#8 := by
  rw [frame, if_neg (by decide)] at h
  split at h
  · cases h
  · cases h
    rw [xorBytes_append, xorBytes_cons, xorBytes_nil, BitVec.xor_zero, BitVec.xor_self]

/-- Bytes that XOR to 0 end in the XOR of the others. -/
theorem getElem?_last_of_xorBytes {f : List Byte} {n : Nat} (hlen : f.length = n + 1) (hx : xorBytes f = 0#8) :
    f[n]? = some (xorBytes (f.take n)) := by
  have hn : n < f.length := by omega
  have hsplit : f.take n ++ [f[n]] = f := by rw [List.take_append_getElem, ← hlen, List.take_length]
  have hsum : xorBytes (f.take n) ^^^ f[n] = 0#8 := by
    rw [← hx, ← congrArg xorBytes hsplit, xorBytes_append, xorBytes_cons, xorBytes_nil, BitVec.xor_zero]
  rw [List.getElem?_eq_getElem hn, BitVec.xor_eq_zero_iff.mp hsum]

/-- Settles O15: FRAMEBUF reads as the frame that was written, whose bytes XOR to 0. -/
theorem payloadFrameXorsToZero : Obligations.PayloadFrameXorsToZero := by
  intro s t hseq hpay hfits h k
  set f := wireFrame s.encCtrl.opcode (some (payloadOperand s)) with hf
  have hlen : f.length = s.encCtrl.len.toNat + 3 + 1 := by rw [hf, length_wireFrame_some, length_payloadOperand]
  have hmax : f.length ≤ 259 := by omega
  have hx : xorBytes f = 0#8 := xorBytes_wireFrame _ _
  rw [stepEvent_encComplete, encComplete_ok hseq (encodeResult_payload hpay hfits)] at h
  cases h
  dsimp only
  rw [toNat_ofNat_frameLen hmax, ← hf, readBytes_frame hmax k _ le_rfl, readBytes_frame hmax k _ (Nat.sub_le _ _),
    List.take_length, hlen, Nat.add_sub_cancel]
  refine ⟨hx, readByte_stored ?_ k⟩
  rw [storedByte_frame_at hmax (by omega), getElem?_last_of_xorBytes hlen hx]

/-- Changing a byte by a mask changes the XOR by the mask. -/
theorem xorBytes_set_xor {f : List Byte} {i : Nat} {b : Byte} (h : f[i]? = some b) (m : Byte) :
    xorBytes (f.set i (b ^^^ m)) = xorBytes f ^^^ m := by
  rw [xorBytes_set f i b _ h, BitVec.xor_assoc, ← BitVec.xor_assoc b b, BitVec.xor_self, BitVec.zero_xor]

theorem one_shiftLeft_ne_zero {j : Nat} (hj : j < 8) : 1#8 <<< j ≠ 0#8 := by
  interval_cases j <;> decide

/-- Settles O16: the XOR of the frame is 0, and each change of a byte adds its mask. -/
theorem checksumSeesOneBitErrors : Obligations.ChecksumSeesOneBitErrors := by
  intro op len p f h
  have hx := xorBytes_frame h
  refine ⟨fun i b j hb hj => ?_, fun i i' b b' j hne hb hb' => ?_, fun i i' b b' hne hb hb' => ?_⟩
  · rw [xorBytes_set_xor hb, hx, BitVec.zero_xor]
    exact one_shiftLeft_ne_zero hj
  · rw [xorBytes_set_xor ((List.getElem?_set_ne hne).trans hb'), xorBytes_set_xor hb, hx, BitVec.zero_xor, BitVec.xor_self]
  · rw [xorBytes_set _ i' b' b ((List.getElem?_set_ne hne).trans hb'), xorBytes_set f i b b' hb, hx, BitVec.zero_xor,
      BitVec.xor_assoc b, BitVec.xor_self, BitVec.xor_zero, BitVec.xor_self]

theorem exec_encode_idle {s : State} (h : s.seq = .idle) : exec .encode s = .next (acceptEncode s) :=
  congrArg Host.Outcome.next (whenIdle_idle h _)

/-- Settles O17: the accepted state has the operands of the idle one, and EncComplete ends with their frame or without. -/
theorem encodeRunsToItsEnd : Obligations.EncodeRunsToItsEnd := by
  intro s hidle
  have hp := length_payloadOperand (acceptEncode s)
  refine ⟨payloadOperand (acceptEncode s), _, _, hp, payloadOperand_stored (acceptEncode s), exec_encode_idle hidle,
    stepEvent_encComplete _, ?_⟩
  obtain ⟨hpay, hlong, hr⟩ | ⟨hpay, hr⟩ | ⟨hpay, hfits, hr⟩ := encodeResult_cases (acceptEncode s)
  · rw [encComplete_fail rfl hr]
    exact ⟨⟨rfl, rfl⟩, rfl, by rw [hidle]; rfl, .inl ⟨hpay, hp ▸ hlong, rfl, rfl, rfl, rfl⟩⟩
  all_goals
    have hmax := encodeResult_length hr
    rw [encComplete_ok rfl hr]
    refine ⟨⟨rfl, rfl⟩, rfl, by rw [hidle]; rfl, .inr ⟨_, ?_, rfl, rfl, toNat_ofNat_frameLen hmax,
      fun j hj => storedByte_frame_at hmax hj, fun a ha => storedByte_frame_outside hmax ha⟩⟩
  · exact .inl ⟨hpay, rfl⟩
  · exact .inr ⟨hpay, hp ▸ hfits, rfl⟩

/-- Settles O18: the seven bytes are those that DecComplete reads. -/
theorem decodeDescRunsToItsEnd : Obligations.DecodeDescRunsToItsEnd := by
  intro s hidle
  obtain ⟨haccept, hcomplete⟩ := exec_decComplete_decodeDesc hidle
  refine ⟨descByte (acceptDecodeDesc s), _, _, fun i x _ hx => descByte_stored hx, haccept, hcomplete, fun hbad => ?_,
    fun h0 h1 => ?_⟩
  · rw [decodeDescRun, decComplete_bad rfl hbad, hidle]; rfl
  · rw [decodeDescRun, decComplete_good rfl h0 h1, descWord, leWord_append, descInfoFor, mode_append, hidle]; rfl

end Sys2Proof.Machine

/-! PROOFS. Device commands: their host writes one by one (R119), what these leave, and the frame that ENCODE then builds or
refuses to build (R133, R200 to R206). -/

namespace Sys2Proof.Machine

/-- Settles O39: a run of host writes is `hostWrites`; AWAIT's first two writes store its operands. -/
theorem pseudoOperationsAreTheirHostWrites : Obligations.PseudoOperationsAreTheirHostWrites := by
  refine ⟨fun i op p s hops => ?_, fun s => ?_, fun n T s hidle => ?_⟩
  · rw [run_hostWrites, exec_device hops, issueEncode]
  · exact runEvents_singleton (.hostWrite 0x000#11 0x00000001#32) s
  · have hn : stepEvent (.hostWrite 0x01C#11 n) s = .next { s with rrN := n.extractLsb' 0 16 } :=
      stepEvent_hostWrite_idle hidle _ _
    have hT : stepEvent (.hostWrite 0x020#11 T) { s with rrN := n.extractLsb' 0 16 } =
        .next { s with rrN := n.extractLsb' 0 16, rrTimeout := T } := stepEvent_hostWrite_idle (by exact hidle) _ _
    exact (runEvents_cons_next hn).trans ((runEvents_cons_next hT).trans (runEvents_singleton (.hostWrite 0x000#11 2#32) _))

/-- The bytes that the payload writes of the pseudo-operation ENCODE put into PLBUF, the padding among them (R118, R119). -/
def paddedPayload : Option (List Byte) → List Byte
  | none => []
  | some p => (wrbWords (p.take Config.plBytes)).flatMap leBytes

/-- A payload is written whole words at a time, at most 256 bytes of it, the last word padded with 00 (R118). -/
theorem paddedPayload_some (p : List Byte) : ∃ pad, paddedPayload (some p) = p.take 256 ++ List.replicate pad 0#8 ∧
    min p.length 256 + pad = min ((p.length + 3) / 4 * 4) 256 := by
  obtain ⟨pad, -, hbytes, hlen⟩ := wrbWords_bytes (p.take 256)
  rw [List.length_take] at hlen
  exact ⟨pad, hbytes, by omega⟩

theorem length_paddedPayload (payload : Option (List Byte)) : (paddedPayload payload).length ≤ 256 := by
  cases payload with
  | none => exact Nat.zero_le _
  | some p =>
    obtain ⟨pad, hbytes, hlen⟩ := paddedPayload_some p
    rw [hbytes, List.length_append, List.length_take, List.length_replicate]
    omega

/-- The payload writes on an idle block (R118, R119). -/
theorem hostWrites_payload {s : State} (hidle : s.seq = .idle) (payload : Option (List Byte)) :
    hostWrites (encodePayloadWrites payload) s = { s with mem := writeBytes s.mem 0x100 (paddedPayload payload) } := by
  cases payload with
  | none => rfl
  | some p =>
    have hwords := length_wrbWords (p.take 256)
    rw [List.length_take] at hwords
    have hroom : 0x100 + 4 * (wrbWords (p.take 256)).length ≤ 0x200 := by omega
    exact hostWrites_plbuf _ 0x100 s hidle le_rfl rfl hroom

/-- The pseudo-operation ENCODE on an idle block: its operands written, ENCODE accepted (R101, R119). -/
theorem issueEncode_idle {s : State} (hidle : s.seq = .idle) (op : Byte) (payload : Option (List Byte)) :
    issueEncode op payload s = { s with
      status := Status.accepted, seq := .enc, encCtrl := encCtrlOf (encodeCtrlWord op payload),
      mem := writeBytes s.mem 0x100 (paddedPayload payload) } := by
  set m := writeBytes s.mem 0x100 (paddedPayload payload)
  set w := encodeCtrlWord op payload
  have hctrl : hostWrite 0x008#11 w { s with mem := m } = { s with mem := m, encCtrl := encCtrlOf w } :=
    whenIdle_idle (by exact hidle) _
  have hcmd : hostWrite 0x000#11 0#32 { s with mem := m, encCtrl := encCtrlOf w } =
      acceptEncode { s with mem := m, encCtrl := encCtrlOf w } := whenIdle_idle (by exact hidle) _
  rw [issueEncode, encodeWrites, hostWrites_append, hostWrites_payload hidle, hostWrites, hctrl, hostWrites, hcmd]
  rfl

/-- A byte of the payload writes is stored at its place (R42). -/
theorem storedByte_plbuf_at {m : List Host.Cell} {f : List Byte} {i : Nat} (hf : f.length ≤ 256) (hi : i < f.length) :
    storedByte (writeBytes m 0x100 f) (0x100 + i) = f[i]? := by
  rw [storedByte_writeBytes, if_pos ⟨by omega, by omega, (isStorage_iff _).mpr (by omega)⟩, Nat.add_sub_cancel_left]

/-- A byte outside the payload writes is as before (R42). -/
theorem storedByte_plbuf_outside {m : List Host.Cell} {f : List Byte} {a : Nat}
    (ha : a < 0x100 ∨ 0x100 + f.length ≤ a) : storedByte (writeBytes m 0x100 f) a = storedByte m a := by
  rw [storedByte_writeBytes, if_neg (by omega)]

section Padded
variable {m : List Host.Cell} {p : List Byte} {j : Nat}

theorem storedByte_payload (hj : j < min p.length 256) :
    storedByte (writeBytes m 0x100 (paddedPayload (some p))) (0x100 + j) = p[j]? := by
  obtain ⟨pad, hbytes, hlen⟩ := paddedPayload_some p
  have hmax := length_paddedPayload (some p)
  rw [storedByte_plbuf_at hmax (by rw [hbytes]; simp; omega), hbytes, List.getElem?_append_left (by simp; omega),
    List.getElem?_take_of_lt (by omega)]

theorem storedByte_padding (hp : p.length ≤ j) (hj : j < (p.length + 3) / 4 * 4) (h : j < 256) :
    storedByte (writeBytes m 0x100 (paddedPayload (some p))) (0x100 + j) = some 0#8 := by
  obtain ⟨pad, hbytes, hlen⟩ := paddedPayload_some p
  have hmax := length_paddedPayload (some p)
  rw [storedByte_plbuf_at hmax (by rw [hbytes]; simp; omega), hbytes, List.getElem?_append_right (by simp; omega),
    List.getElem?_replicate_of_lt (by simp; omega)]

end Padded

/-- The ENCODE_CTRL length of a payload: its length, up to what the field holds (R119; notes/assumptions/8). -/
theorem toNat_encCtrlLen (op : Byte) (p : List Byte) :
    (encCtrlOf (encodeCtrlWord op (some p))).len.toNat = min p.length 511 := by
  rw [encCtrlOf_word_some]
  exact Nat.mod_eq_of_lt (by omega)

/-- Settles O40: the state that the host writes leave, its bytes known by position. -/
theorem deviceCommandsStartEncode : Obligations.DeviceCommandsStartEncode := by
  intro i op payload s hops hidle
  refine ⟨_, exec_device hops s, ?_⟩
  rw [issueEncode_idle hidle]
  refine ⟨rfl, ?opcode, ?absent, ?supplied⟩
  case opcode =>
    cases payload with
    | none => exact congrArg EncCtrl.opcode (encCtrlOf_word_none op)
    | some p => exact congrArg EncCtrl.opcode (encCtrlOf_word_some op p)
  case absent =>
    rintro rfl
    dsimp only
    rw [encCtrlOf_word_none]
    exact ⟨rfl, rfl, rfl⟩
  case supplied =>
    rintro p rfl
    obtain ⟨pad, hbytes, hlen⟩ := paddedPayload_some p
    refine ⟨toNat_encCtrlLen op p, congrArg EncCtrl.hasPayload (encCtrlOf_word_some op p),
      fun j hj => storedByte_payload hj, fun j hp hj h => storedByte_padding hp hj h,
      fun a ha => storedByte_plbuf_outside ?_⟩
    rw [hbytes, List.length_append, List.length_take, List.length_replicate]
    omega

/-- A payload that PLBUF holds is what ENCODE reads (R102). -/
theorem payloadOperand_eq {s : State} {p : List Byte} (hlen : s.encCtrl.len.toNat = p.length)
    (hp : ∀ j, j < p.length → storedByte s.mem (0x100 + j) = p[j]?) : payloadOperand s = p := by
  have hlen' := (length_payloadOperand s).trans hlen
  refine List.ext_getElem? fun j => ?_
  rcases Nat.lt_or_ge j p.length with hj | hj
  · have hget : p[j]? = some p[j] := List.getElem?_eq_getElem hj
    rw [hget]
    exact payloadOperand_stored s j _ (by omega) ((hp j hj).trans hget)
  · rw [List.getElem?_eq_none hj, List.getElem?_eq_none (by omega)]

/-- After the host writes of a payload that fits, ENCODE builds its wire frame (R110, R111). -/
theorem encodeResult_issueEncode {s : State} (hidle : s.seq = .idle) (op : Byte) {payload : Option (List Byte)}
    (hfits : payloadFits payload = true) : encodeResult (issueEncode op payload s) = some (wireFrame op payload) := by
  rw [issueEncode_idle hidle]
  cases payload with
  | none =>
    rw [encCtrlOf_word_none]
    exact encodeResult_none rfl
  | some p =>
    have hmax : p.length ≤ 255 := of_decide_eq_true hfits
    have hlen := toNat_encCtrlLen op p
    rw [encodeResult_payload (congrArg EncCtrl.hasPayload (encCtrlOf_word_some op p)) (by dsimp only; omega)]
    rw [payloadOperand_eq (p := p) (by dsimp only; omega) (fun j hj => storedByte_payload (by omega))]
    rw [encCtrlOf_word_some]

/-- Settles O41: the frame that ENCODE builds is the instruction's encoding. -/
theorem deviceCommandsBuildTheirFrames : Obligations.DeviceCommandsBuildTheirFrames := by
  intro i bytes s hwf henc hidle
  obtain ⟨op, payload, hops, rfl, hfits⟩ := frame_device henc hwf
  have hr := encodeResult_issueEncode hidle op hfits
  have hlen := encodeResult_length hr
  have hpay := length_paddedPayload payload
  refine ⟨_, _, exec_device hops s, stepEvent_encComplete _, ?_⟩
  rw [encComplete_ok (by rw [issueEncode_idle hidle]) hr, issueEncode_idle hidle]
  refine ⟨⟨rfl, rfl⟩, rfl, rfl, toNat_ofNat_frameLen hlen, fun j hj => storedByte_frame_at hlen hj, by rw [hidle],
    fun a ha => ?_⟩
  rw [storedByte_frame_outside hlen (by omega), storedByte_plbuf_outside (by omega)]

/-- Settles O42: LEN is over 255, so ENCODE builds no frame. -/
theorem deviceCommandsRejectLongPayload : Obligations.DeviceCommandsRejectLongPayload := by
  intro i op p s hops hlong hidle
  have hlen := toNat_encCtrlLen op p
  have hr : encodeResult (issueEncode op (some p) s) = none := by
    rw [issueEncode_idle hidle]
    exact encodeResult_long (congrArg EncCtrl.hasPayload (encCtrlOf_word_some op p)) (by dsimp only; omega)
  have hmax := length_paddedPayload (some p)
  refine ⟨_, _, exec_device hops s, stepEvent_encComplete _, ?_⟩
  rw [encComplete_fail (by rw [issueEncode_idle hidle]) hr, issueEncode_idle hidle]
  exact ⟨⟨rfl, rfl⟩, rfl, rfl, rfl, fun a ha => storedByte_plbuf_outside (by omega)⟩

end Sys2Proof.Machine

/-! PROOFS. Acceptance of the host commands (R101, R171) and the steps of a running AWAIT: its polls and ticks (R173, R175,
R177) and its request ports (R49, R113, R114). -/

namespace Sys2Proof.Machine

/-- A write to CMD on an idle block runs the command that it decodes to (R24, R101). -/
theorem stepEvent_hostWrite_cmd {a : Addr} (ha : a.toNat / 4 = 0) (w : Word) (s : State) :
    stepEvent (.hostWrite a w) s = exec (decodeCmd w) s := by
  rw [stepEvent_hostWrite, exec_decodeCmd, hostWrite, wordOffset_eq_zero.mpr ha]; rfl

/-- Settles O7: a write to CMD runs what it decodes to; each command's acceptance is then read off. -/
theorem idleBlockAcceptsHostCommands : Obligations.IdleBlockAcceptsHostCommands := by
  intro s hidle
  refine ⟨fun a w ha => ?cmd, ⟨_, exec_encode_idle hidle, rfl, rfl⟩, ⟨_, exec_decodeDesc_idle hidle, rfl, rfl⟩,
    fun hn => ⟨_, exec_await_idle hidle hn, rfl, rfl⟩, fun hn => ?range, ?rsvd3⟩
  case cmd =>
    rw [stepEvent_hostWrite_cmd ha, decodeCmd]
    split_ifs <;> rfl
  case range =>
    refine ⟨acceptAwait s, congrArg Host.Outcome.next (whenIdle_idle hidle _), ?_⟩
    rw [acceptAwait_range hn, hidle]
    exact ⟨rfl, rfl⟩
  case rsvd3 =>
    refine ⟨_, decodeCmd_accept 3#32 hidle, ?_⟩
    rw [show (3#32).extractLsb' 0 2 = 3#2 from rfl, accept_rsvd3 hidle]
    exact ⟨by simp [busy, hidle], rfl⟩

/-- Settles O21: the three branches of a poll. -/
theorem pollTakesItsBranch : Obligations.PollTakesItsBranch := by
  intro s c hseq
  refine ⟨fun henough => ?_, fun hfew hlate => ?_, fun hfew hearly => ?_⟩ <;> rw [stepEvent_poll]
  · rw [poll_read hseq henough]; rfl
  · rw [poll_timeout hseq hfew hlate]; rfl
  · rw [poll_wait hseq hfew hearly]; rfl

/-- Settles O22: WAIT is entered only before the deadline, so one more tick neither wraps nor passes it. -/
theorem tickCountsOnlyInWait : Obligations.TickCountsOnlyInWait := by
  intro s
  refine ⟨fun hseq => ?_, fun hseq hi => ?_, fun hseq => ?_⟩
  · rw [stepEvent_tick, tick_wait hseq]; rfl
  · obtain ⟨hearly, -⟩ := hi.waitBounds hseq
    have hsucc := elapsed_succ hearly
    exact ⟨hsucc, hsucc ▸ hearly⟩
  · rw [stepEvent_tick, tick_other hseq]

/-- Settles O24: the query due finds enough whatever it answers, and the read stores nothing. -/
theorem awaitOfZeroBytes : Obligations.AwaitOfZeroBytes := by
  intro s c d hidle hn
  have hn0 : s.rrN.toNat = 0 := by rw [hn]; rfl
  refine ⟨_, _, _, exec_await_queryDue hidle (by omega), stepEvent_poll_queryDue_enough (by omega), rfl, rfl, rfl,
    congrArg some hn, stepEvent_read_queryDue s 0 c d, ⟨rfl, rfl⟩, ?_⟩
  rw [hn0, List.take_zero, awaitEnded]
  exact ⟨rfl, rfl, rfl, fun a => rfl⟩

/-- The clock in which the channel takes an offered request (R49). -/
theorem stepEvent_cqReady_offered {s : State} (hchan : s.chan = { cqValid := true, outstanding := false, beats := 0 }) :
    stepEvent .cqReady s = .next { s with chan := { cqValid := false, outstanding := true, beats := 0 } } := by
  rw [stepEvent_cqReady, takeRequest, if_pos (by rw [hchan]), hchan]

/-- A read taken by the channel and answered beat by beat is the step of its bytes (R114). -/
theorem runEvents_readBeats {s : State} (d : List (Byte × Word)) (b : Byte) (c : Word) (hseq : s.seq = .read)
    (hout : s.chan.outstanding = true) :
    runEvents (dataBeats d ++ [.crBeat true b c]) s = .next (readStep (d.map Prod.fst) s) := by
  induction d generalizing s with
  | nil => exact (runEvents_singleton _ _).trans (congrArg Host.Outcome.next (beat_read_last hseq hout b c))
  | cons x d ih =>
    rw [dataBeats, List.map_cons, List.cons_append, runEvents_cons_next (stepEvent_crBeat _ _ _ _),
      beat_read_data hseq hout, ← dataBeats, ih (s := dataBeat x.1 s) hseq hout, read_dataBeat hseq, List.map_cons]

/-- Settles O28: the request's own clock and the beats change only what the end of the read writes again. -/
theorem readBeatsRefineRead : Obligations.ReadBeatsRefineRead := by
  intro s d b c hseq hchan
  rw [runEvents_cons_next (stepEvent_cqReady_offered hchan), runEvents_readBeats d b c (by exact hseq) rfl, stepEvent_read,
    read_whole (by exact hseq) rfl, read_whole hseq (by rw [hchan])]

/-- A poll's outcome does not depend on the request in progress, which it replaces (R173). -/
theorem pollStep_chan {s : State} (hseq : s.seq = .poll) (c : Word) (ch : Channel) :
    pollStep c { s with chan := ch } = pollStep c s := by
  unfold pollStep
  exact (if_pos hseq).trans (if_pos hseq).symm

/-- A query taken by the channel is answered by its last beat, and beats before it are discarded (R113). -/
theorem runEvents_queryBeats {s : State} (d : List (Byte × Word)) (b : Byte) (c : Word) (hseq : s.seq = .poll)
    (hout : s.chan.outstanding = true) :
    runEvents (dataBeats d ++ [.crBeat true b c]) s = .next (pollStep c s) := by
  induction d with
  | nil => exact (runEvents_singleton _ _).trans (congrArg Host.Outcome.next (beat_poll_last hseq hout b c))
  | cons x d ih =>
    have hdiscard : responseBeat false x.1 x.2 s = s := by simp [responseBeat, hseq]
    rw [dataBeats, List.map_cons, List.cons_append, runEvents_cons_next (stepEvent_crBeat _ _ _ _), hdiscard]
    exact ih

/-- Settles O29: the request's own clock changes only the request, which the answer replaces. -/
theorem queryBeatsRefinePoll : Obligations.QueryBeatsRefinePoll := by
  intro s d b c hseq hchan
  rw [runEvents_cons_next (stepEvent_cqReady_offered hchan), runEvents_queryBeats d b c (by exact hseq) rfl,
    pollStep_chan hseq, stepEvent_poll]

/-- An offer lasts: no other event than `cq_ready`, a whole answer or reset changes what the request ports show (R49). -/
theorem effect_keeps_offer {e : Event} {s t : State} (hi : Inv s) (hv : cqValid s = true) (h : Effect s e t)
    (hready : e ≠ .cqReady) (hpoll : ∀ c, e ≠ .poll c) (hread : ∀ d, e ≠ .read d) (hreset : ∀ bus, e ≠ .reset bus) :
    t.chan = s.chan ∧ t.seq = s.seq ∧ t.rrN = s.rrN := by
  obtain ⟨hseq, hout⟩ := offered_chan hi hv
  cases h with
  | stray => exact ⟨rfl, rfl, rfl⟩
  | overrun => exact ⟨rfl, rfl, rfl⟩
  | write hidle => simp [hidle] at hseq
  | device hidle => simp [hidle] at hseq
  | hostRead => exact ⟨rfl, rfl, rfl⟩
  | take => exact absurd rfl hready
  | encComplete h => simp [h] at hseq
  | decComplete h => simp [h] at hseq
  | poll _ c he =>
    obtain rfl | ⟨htaken, -⟩ := he
    · exact absurd rfl (hpoll c)
    · simp [htaken] at hout
  | tick h => simp [h] at hseq
  | read _ d => exact absurd rfl (hread d)
  | lastBeat _ htaken => simp [htaken] at hout
  | dataBeat _ htaken => simp [htaken] at hout
  | reset bus => exact absurd rfl (hreset bus)

/-- Settles O31: the invariant places an offered request; the events that could end it are those excepted. -/
theorem requestPortsFollowTheSequencer : Obligations.RequestPortsFollowTheSequencer := by
  intro s hi
  refine ⟨fun hv => ?ports, fun hpoll hread => ?quiet, fun hv => ?taken,
    fun e t hv h hready hpoll hread hreset => ?lasts, rfl⟩
  case ports =>
    rw [cqKind_offered hv, cqN_offered hv]
    obtain ⟨h | h, -⟩ := offered_chan hi hv <;> simp [h]
  case quiet => exact Bool.or_eq_false_iff.mp (quiet_chan hi hpoll hread).1
  case taken => exact ⟨_, congrArg Host.Outcome.next (if_pos hv), rfl, rfl, rfl⟩
  case lasts =>
    obtain ⟨hchan, hseq, hn⟩ := effect_keeps_offer hi hv (effect_of_stepEvent h) hready hpoll hread hreset
    have hvt : cqValid t = true := (congrArg Channel.cqValid hchan).trans hv
    rw [cqKind_offered hv, cqN_offered hv, cqKind_offered hvt, cqN_offered hvt, hseq, hn]
    exact ⟨hvt, rfl, rfl⟩

end Sys2Proof.Machine

/-! PROOFS. The channel traffic of one AWAIT (R178). What is still to come is a function of the phase the AWAIT is in, and each
event of a run leads to a phase from which one answer fewer is to come, or as many. -/

namespace Sys2Proof.Machine

/-- The answers and the outcome of an AWAIT with deadline `T` whose next query is due after `ticks` ticks (R174, R178). -/
def PollTraffic (T ticks queries reads : Nat) (code : BitVec 4) : Prop :=
  (1 ≤ queries ∧ ticks + queries ≤ T + 1 ∧ reads = 1 ∧ (code = 0#4 ∨ code = 3#4)) ∨
    (ticks + queries = T + 1 ∧ reads = 0 ∧ code = 4#4)

/-- A query answered and a tick after it come before the traffic from the next query on (R178). -/
theorem PollTraffic.after_query {T ticks queries reads : Nat} {code : BitVec 4}
    (h : PollTraffic T (ticks + 1) queries reads code) : PollTraffic T ticks (1 + queries) reads code := by
  obtain ⟨-, hmax, hread, hcode⟩ | ⟨hall, hread, hcode⟩ := h
  · exact .inl ⟨by omega, by omega, hread, hcode⟩
  · exact .inr ⟨by omega, hread, hcode⟩

/-- The answers still to come in a state on the way of an AWAIT with deadline `T`, and the code it ends with. -/
def TrafficToCome (T : Nat) (s : State) (queries reads : Nat) (code : BitVec 4) : Prop :=
  match s.seq with
  | .idle => queries = 0 ∧ reads = 0 ∧ code = s.status.errCode
  | .poll => PollTraffic T s.rrElapsed.toNat queries reads code
  | .wait => PollTraffic T (s.rrElapsed.toNat + 1) queries reads code
  | .read => queries = 0 ∧ reads = 1 ∧ (code = 0#4 ∨ code = 3#4)
  | .enc => False
  | .dec => False

/-- A state on the way of an AWAIT with deadline `T`: its query is due by the deadline, or it has ended. -/
def AwaitPhase (T : Nat) (s : State) : Prop :=
  match s.seq with
  | .idle => True
  | .poll => s.rrTimeout.toNat = T ∧ s.rrElapsed.toNat ≤ T
  | .wait => s.rrTimeout.toNat = T ∧ s.rrElapsed.toNat < T
  | .read => True
  | .enc => False
  | .dec => False

section Phases
variable {T : Nat} {s : State} {queries reads : Nat} {code : BitVec 4}

theorem trafficToCome_idle (h : s.seq = .idle) :
    TrafficToCome T s queries reads code ↔ queries = 0 ∧ reads = 0 ∧ code = s.status.errCode := by
  rw [TrafficToCome, h]

theorem trafficToCome_poll (h : s.seq = .poll) :
    TrafficToCome T s queries reads code ↔ PollTraffic T s.rrElapsed.toNat queries reads code := by
  rw [TrafficToCome, h]

theorem trafficToCome_wait (h : s.seq = .wait) :
    TrafficToCome T s queries reads code ↔ PollTraffic T (s.rrElapsed.toNat + 1) queries reads code := by
  rw [TrafficToCome, h]

theorem trafficToCome_read (h : s.seq = .read) :
    TrafficToCome T s queries reads code ↔ queries = 0 ∧ reads = 1 ∧ (code = 0#4 ∨ code = 3#4) := by
  rw [TrafficToCome, h]

theorem awaitPhase_idle (h : s.seq = .idle) : AwaitPhase T s := by rw [AwaitPhase, h]; trivial

theorem awaitPhase_poll (h : s.seq = .poll) :
    AwaitPhase T s ↔ s.rrTimeout.toNat = T ∧ s.rrElapsed.toNat ≤ T := by rw [AwaitPhase, h]

theorem awaitPhase_wait (h : s.seq = .wait) :
    AwaitPhase T s ↔ s.rrTimeout.toNat = T ∧ s.rrElapsed.toNat < T := by rw [AwaitPhase, h]

theorem awaitPhase_read (h : s.seq = .read) : AwaitPhase T s := by rw [AwaitPhase, h]; trivial

end Phases

/-- `t` follows `s` on the way of an AWAIT with deadline `T`, after `q` queries and `r` reads answered. -/
def LeadsTo (T : Nat) (s t : State) (q r : Nat) : Prop :=
  AwaitPhase T t ∧ ∀ queries reads code,
    TrafficToCome T t queries reads code → TrafficToCome T s (q + queries) (r + reads) code

section LeadsTo
variable {T : Nat} {s : State}

/-- A step that changes nothing that the phase looks at. -/
theorem leadsTo_of_same_phase {t : State} (hphase : AwaitPhase T s) (hseq : t.seq = s.seq)
    (hcode : t.status.errCode = s.status.errCode) (hT : t.rrTimeout = s.rrTimeout) (hel : t.rrElapsed = s.rrElapsed) :
    LeadsTo T s t 0 0 := by
  rw [AwaitPhase, ← hseq, ← hT, ← hel] at hphase
  refine ⟨hphase, fun queries reads code h => ?_⟩
  rw [Nat.zero_add, Nat.zero_add]
  rwa [TrafficToCome, hseq, hcode, hel] at h

/-- A step on an idle block that keeps it idle and keeps its error code. -/
theorem leadsTo_of_idle {t : State} (hs : s.seq = .idle) (ht : t.seq = .idle)
    (hcode : t.status.errCode = s.status.errCode) : LeadsTo T s t 0 0 := by
  refine ⟨awaitPhase_idle ht, fun queries reads code h => ?_⟩
  rw [trafficToCome_idle ht, hcode] at h
  rwa [Nat.zero_add, Nat.zero_add, trafficToCome_idle hs]

/-- A poll's answer: the read is due, or the wait, or the deadline has passed (R173). -/
theorem leadsTo_pollStep (hphase : AwaitPhase T s) (h : s.seq = .poll) (c : Word) : LeadsTo T s (pollStep c s) 1 0 := by
  obtain ⟨hT, hel⟩ := (awaitPhase_poll h).mp hphase
  rcases Nat.lt_or_ge c.toNat s.rrN.toNat with hfew | henough
  · rcases Nat.lt_or_ge s.rrElapsed.toNat s.rrTimeout.toNat with hearly | hlate
    · rw [poll_wait h hfew hearly]
      refine ⟨(awaitPhase_wait rfl).mpr ⟨hT, by dsimp only; omega⟩, fun queries reads code hrest => ?_⟩
      rw [Nat.zero_add]
      exact (trafficToCome_poll h).mpr ((trafficToCome_wait rfl).mp hrest).after_query
    · rw [poll_timeout h hfew hlate]
      refine ⟨awaitPhase_idle rfl, fun queries reads code hrest => ?_⟩
      rw [trafficToCome_idle rfl] at hrest
      rw [trafficToCome_poll h]
      exact .inr ⟨by omega, by omega, hrest.2.2⟩
  · rw [poll_read h henough]
    refine ⟨awaitPhase_read rfl, fun queries reads code hrest => ?_⟩
    obtain ⟨hqueries, hreads, hcode⟩ := (trafficToCome_read rfl).mp hrest
    exact (trafficToCome_poll h).mpr (.inl ⟨by omega, by omega, by omega, hcode⟩)

/-- A tick makes the next query due (R175). -/
theorem leadsTo_tickStep (hphase : AwaitPhase T s) (h : s.seq = .wait) : LeadsTo T s (tickStep s) 0 0 := by
  obtain ⟨hT, hel⟩ := (awaitPhase_wait h).mp hphase
  have hsucc := elapsed_succ (s := s) (by omega)
  rw [tick_wait h]
  refine ⟨(awaitPhase_poll rfl).mpr ⟨hT, by dsimp only; omega⟩, fun queries reads code hrest => ?_⟩
  rw [trafficToCome_poll rfl] at hrest
  dsimp only at hrest
  rwa [Nat.zero_add, Nat.zero_add, trafficToCome_wait h, ← hsucc]

/-- A read's answer ends the command with success or PROTO_TRUNCATED (R176). -/
theorem leadsTo_readStep (h : s.seq = .read) (d : List Byte) : LeadsTo T s (readStep d s) 0 1 := by
  rw [read_any h]
  refine ⟨awaitPhase_idle rfl, fun queries reads code hrest => ?_⟩
  obtain ⟨rfl, rfl, rfl⟩ := (trafficToCome_idle rfl).mp hrest
  refine (trafficToCome_read h).mpr ⟨rfl, rfl, ?_⟩
  dsimp only [Status.completed_errCode]
  split
  · exact .inr rfl
  · exact .inl rfl

end LeadsTo

/-- A write elsewhere than CMD keeps the block idle (R76). -/
theorem writeIdle_seq {o : Nat} (h : o ≠ 0) (d : Word) (s : State) : (writeIdle o d s).seq = s.seq := by
  unfold writeIdle
  rw [if_neg h]
  split_ifs <;> rfl

/-- Each event of an AWAIT's run leads on, its answer counted. -/
theorem leadsTo_of_stepEvent {T : Nat} {e : Event} {s t : State} (hphase : AwaitPhase T s) (he : isAwaitEvent e = true)
    (h : stepEvent e s = .next t) :
    LeadsTo T s t (if answersQuery s e then 1 else 0) (if answersRead s e then 1 else 0) := by
  cases effect_of_stepEvent h with
  | stray _ hquery hread =>
    rw [hquery, hread]
    exact leadsTo_of_same_phase hphase rfl rfl rfl rfl
  | overrun _ hwrite =>
    obtain ⟨a, d, rfl⟩ | ⟨bytes, rfl⟩ := hwrite
    · exact leadsTo_of_same_phase hphase rfl rfl rfl rfl
    · cases he
  | write hidle a d =>
    have ha : wordOffset a ≠ 0 := of_decide_eq_true he
    exact leadsTo_of_idle hidle ((writeIdle_seq ha d s).trans hidle) (by rw [writeIdle_status ha])
  | hostRead => exact leadsTo_of_same_phase hphase rfl rfl rfl rfl
  | poll hseq c hanswer =>
    obtain rfl | ⟨-, b, rfl⟩ := hanswer
    · simp only [answersQuery, answersRead, hseq]
      exact leadsTo_pollStep hphase hseq c
    · cases he
  | tick hseq => exact leadsTo_tickStep hphase hseq
  | read hseq d =>
    simp only [answersQuery, answersRead, hseq]
    exact leadsTo_readStep hseq d
  | _ => cases he

/-- From a state on the way of an AWAIT, a run to the end has the traffic still to come. -/
theorem trafficToCome_of_runEvents {T : Nat} {es : List Event} {s u : State} (hphase : AwaitPhase T s)
    (hes : ∀ e ∈ es, isAwaitEvent e = true) (hrun : runEvents es s = .next u) (hu : u.seq = .idle) :
    TrafficToCome T s (countAnswers answersQuery es s) (countAnswers answersRead es s) u.status.errCode := by
  induction es generalizing s with
  | nil => cases hrun; exact (trafficToCome_idle hu).mpr ⟨rfl, rfl, rfl⟩
  | cons e es ih =>
    obtain ⟨he, hes⟩ := List.forall_mem_cons.mp hes
    obtain ⟨t, ht⟩ := await_event e he s
    obtain ⟨hphase', hlead⟩ := leadsTo_of_stepEvent hphase he ht
    rw [runEvents_cons_next ht] at hrun
    rw [count_cons ht, count_cons ht]
    exact hlead _ _ _ (ih hphase' hes hrun)

/-- Settles O27: the accepted AWAIT has all its traffic still to come. -/
theorem awaitChannelTraffic : Obligations.AwaitChannelTraffic := by
  intro s t u es hidle hn hexec hes hrun hu
  cases (exec_await_queryDue hidle hn).symm.trans hexec
  have hphase : AwaitPhase s.rrTimeout.toNat (queryDue s 0 0#32) :=
    (awaitPhase_poll rfl).mpr ⟨rfl, Nat.zero_le _⟩
  have htraffic := (trafficToCome_poll rfl).mp (trafficToCome_of_runEvents hphase hes hrun hu)
  rwa [PollTraffic, queryDue_elapsed (Nat.zero_le _), Nat.zero_add] at htraffic

end Sys2Proof.Machine

/-! PROOFS. Whole-machine rules, by the effects an event can have: a running command's operands do not change (R45), what
ends it (R181, R225), and how long an error record stays (R227). Then reset (R250, R252). -/

namespace Sys2Proof.Machine

/-- What a running command reads is the same in `t` as in `s` (R45): by definition, where a proof does not name it. -/
structure OperandsKept (s t : State) : Prop where
  encCtrl : t.encCtrl = s.encCtrl := by rfl
  rrN : t.rrN = s.rrN := by rfl
  rrTimeout : t.rrTimeout = s.rrTimeout := by rfl
  plbuf : ∀ a, 0x100 ≤ a → a < 0x200 → storedByte t.mem a = storedByte s.mem a := by exact fun _ _ _ => rfl
  rxbuf : s.seq = .dec → ∀ a, 0x400 ≤ a → storedByte t.mem a = storedByte s.mem a := by exact fun _ _ _ => rfl

theorem operandsKept_readStep {s : State} (h : s.seq = .read) (d : List Byte) : OperandsKept s (readStep d s) := by
  obtain ⟨q, st, g, m, ch, hframe, hmem⟩ := read_frame d s
  rw [hframe]
  exact { plbuf := fun a _ ha => hmem a (by omega), rxbuf := fun hdec => by simp [h] at hdec }

/-- A data beat stores in RXBUF only (R114). -/
theorem dataBeat_mem (b : Byte) (s : State) {a : Nat} (ha : a < 0x400) :
    storedByte (dataBeat b s).mem a = storedByte s.mem a := by
  rw [dataBeat, storeReceived, storedByte_writeBytes, if_neg (by rw [Config.rxBase]; omega)]

theorem operandsKept_of_effect {e : Event} {s t : State} (hbusy : s.seq ≠ .idle) (hreset : ∀ bus, e ≠ .reset bus)
    (h : Effect s e t) : OperandsKept s t := by
  cases h with
  | stray => exact {}
  | overrun => exact {}
  | write hidle => exact absurd hidle hbusy
  | device hidle => exact absurd hidle hbusy
  | hostRead => exact {}
  | take => exact {}
  | encComplete h =>
    have hmem := encComplete_mem s
    obtain ⟨q, st, fl, m, dr, hframe⟩ := encComplete_frame s
    rw [hframe] at hmem ⊢
    exact { plbuf := fun a _ ha => hmem a (.inl ha), rxbuf := fun _ a ha => hmem a (.inr ha) }
  | decComplete h =>
    obtain ⟨q, st, raw, len, info, dr, hframe⟩ := decComplete_frame s
    rw [hframe]
    exact {}
  | poll h c =>
    obtain ⟨q, st, av, ch, hframe⟩ := poll_frame c s
    rw [hframe]
    exact {}
  | tick h => rw [tick_wait h]; exact {}
  | read h d => exact operandsKept_readStep h d
  | lastBeat h => exact operandsKept_readStep h []
  | dataBeat h _ b =>
    exact { plbuf := fun a _ ha => dataBeat_mem b s (by omega), rxbuf := fun hdec => by simp [h] at hdec }
  | reset bus => exact absurd rfl (hreset bus)

/-- Settles O47: by the effect of the schedule's first event. -/
theorem operandsAreStableWhileBusy : Obligations.OperandsAreStableWhileBusy := by
  intro s t hbusy hstep hreset
  obtain ⟨-, rfl⟩ | ⟨e, rest, hs, he⟩ := step_next hstep
  · exact ⟨rfl, rfl, rfl, fun _ _ _ => rfl, fun _ _ _ => rfl⟩
  · have hne : ∀ bus, e ≠ .reset bus := fun bus heq => hreset bus rest (heq ▸ hs)
    obtain ⟨henc, hn, hT, hplbuf, hrxbuf⟩ := operandsKept_of_effect (s := popEvent s) hbusy hne (effect_of_stepEvent he)
    exact ⟨henc, hn, hT, hplbuf, hrxbuf⟩

/-- ENCODE's completion sets DONE (R132, R222). -/
theorem encComplete_done {s : State} (h : s.seq = .enc) : (encComplete s).status.done = true := by
  cases hr : encodeResult s with
  | none => rw [encComplete_fail h hr]; rfl
  | some r => rw [encComplete_ok h hr]; rfl

/-- DECODE_DESC's completion sets DONE (R151, R222). -/
theorem decComplete_done {s : State} (h : s.seq = .dec) : (decComplete s).status.done = true := by
  unfold decComplete
  rw [if_pos h]
  split <;> rfl

/-- A poll that ends the command sets DONE (R173, R222). -/
theorem pollStep_done {s : State} {c : Word} (h : s.seq = .poll) (hend : (pollStep c s).seq = .idle) :
    (pollStep c s).status.done = true := by
  rcases Nat.lt_or_ge c.toNat s.rrN.toNat with hfew | henough
  · rcases Nat.lt_or_ge s.rrElapsed.toNat s.rrTimeout.toNat with hearly | hlate
    · rw [poll_wait h hfew hearly] at hend; cases hend
    · rw [poll_timeout h hfew hlate]; rfl
  · rw [poll_read h henough] at hend; cases hend

/-- A query's answer comes whole or as a last beat (R113). -/
theorem poll_event {e : Event} {c : Word} {p : Prop} (h : e = .poll c ∨ p ∧ ∃ b, e = .crBeat true b c) :
    (∃ c, e = .poll c) ∨ ∃ b c, e = .crBeat true b c :=
  h.imp (fun heq => ⟨c, heq⟩) fun ⟨_, b, heq⟩ => ⟨b, c, heq⟩

/-- The end of a read sets DONE (R176, R222). -/
theorem readStep_done {s : State} {d : List Byte} (h : s.seq = .read) : (readStep d s).status.done = true := by
  rw [read_any h]; rfl

theorem resetClock_done (bus : BusCycle) (s : State) : (resetClock bus s).status.done = false := by
  cases bus <;> rfl

/-- Settles O48: the effects that lead from a running command to IDLE are its completions and reset. -/
theorem runningCommandEndsByCompletionOrReset : Obligations.RunningCommandEndsByCompletionOrReset := by
  intro s t hbusy hstep hend
  obtain ⟨-, rfl⟩ | ⟨e, rest, hs, he⟩ := step_next hstep
  · exact absurd hend hbusy
  · rw [hs]
    cases effect_of_stepEvent he with
    | stray => exact absurd hend hbusy
    | overrun => exact absurd hend hbusy
    | write hidle => exact absurd hidle hbusy
    | device hidle => exact absurd hidle hbusy
    | hostRead => exact absurd hend hbusy
    | take => exact absurd hend hbusy
    | encComplete h => exact .inl ⟨encComplete_done h, _, _, rfl, .inl ⟨h, rfl⟩⟩
    | decComplete h => exact .inl ⟨decComplete_done h, _, _, rfl, .inr (.inl ⟨h, rfl⟩)⟩
    | poll h c hanswer =>
      exact .inl ⟨pollStep_done h hend, _, _, rfl, .inr (.inr (.inl ⟨h, poll_event hanswer⟩))⟩
    | tick h => rw [tick_wait h] at hend; cases hend
    | read h d => exact .inl ⟨readStep_done h, _, _, rfl, .inr (.inr (.inr ⟨h, .inl ⟨d, rfl⟩⟩))⟩
    | lastBeat h _ b c => exact .inl ⟨readStep_done h, _, _, rfl, .inr (.inr (.inr ⟨h, .inr ⟨b, c, rfl⟩⟩))⟩
    | dataBeat h => exact absurd hend hbusy
    | reset bus => exact .inr ⟨resetClock_done bus _, bus, rest, rfl⟩

/-- Settles O50: on an idle block the other effects are a host read, a request taken, and a write elsewhere than to CMD. -/
theorem errorRecordStaysUntilNextCommand : Obligations.ErrorRecordStaysUntilNextCommand := by
  intro s t e hidle hstep hcmd hdevice hreset
  cases effect_of_stepEvent hstep with
  | stray => exact ⟨rfl, hidle⟩
  | overrun hbusy => exact absurd hidle hbusy
  | write _ a d =>
    have ha : wordOffset a ≠ 0 := mt wordOffset_eq_zero.mp (hcmd a d rfl)
    exact ⟨writeIdle_status ha d s, (writeIdle_seq ha d s).trans hidle⟩
  | device _ bytes => exact absurd rfl (hdevice bytes)
  | hostRead => exact ⟨rfl, hidle⟩
  | take => exact ⟨rfl, hidle⟩
  | encComplete h => simp [hidle] at h
  | decComplete h => simp [hidle] at h
  | poll h => simp [hidle] at h
  | tick h => simp [hidle] at h
  | read h => simp [hidle] at h
  | lastBeat h => simp [hidle] at h
  | dataBeat h => simp [hidle] at h
  | reset bus => exact absurd rfl (hreset bus)

/-- Settles O43: what the reset clock does in each bus cycle. -/
theorem resetClockClearsRegisters : Obligations.ResetClockClearsRegisters := by
  intro s bus
  refine ⟨_, stepEvent_reset s bus, ?_, ?_⟩
  · cases bus <;> rfl
  · rintro a rfl; rfl

theorem ite_eq_of_branches_eq {α : Type} {p : Prop} [Decidable p] {a b c : α} (ha : a = c) (hb : b = c) :
    (if p then a else b) = c := by
  rw [ha, hb, ite_self]

/-- After reset every register reads 0 (R252). -/
theorem readRegister_reset (o : Nat) : readRegister State.reset o = 0#32 := by
  have hstatus : statusWord State.reset = 0#32 := by decide
  have hctrl : encCtrlWord State.reset.encCtrl = 0#32 := by decide
  have hinfo : descInfoWord State.reset.descInfo = 0#32 := by decide
  exact ite_eq_of_branches_eq hstatus <| ite_eq_of_branches_eq hctrl <| ite_eq_of_branches_eq rfl <|
    ite_eq_of_branches_eq rfl <| ite_eq_of_branches_eq rfl <| ite_eq_of_branches_eq hinfo <|
    ite_eq_of_branches_eq rfl <| ite_eq_of_branches_eq rfl <| ite_eq_of_branches_eq rfl <|
    ite_eq_of_branches_eq rfl <| ite_eq_of_branches_eq rfl rfl

/-- Settles O44: the registers as they read, and no byte written. -/
theorem resetStateReadsZero : Obligations.ResetStateReadsZero := by
  refine ⟨rfl, fun o ho => ?_, rfl, rfl, rfl, fun a k => readByte_unwritten rfl k⟩
  rw [readWord_reg ho, readRegister_reset]

end Sys2Proof.Machine

/-! PROOFS. Which step writes each result (R223, R227): for every effect and every result, the event is one that
writes it, or the result is as it was. -/

namespace Sys2Proof.Machine

/-- The event ends a read with its response, or is the last beat of one (R114, R176). -/
def EndsRead (s : State) (e : Event) : Prop := s.seq = .read ∧ ((∃ d, e = .read d) ∨ ∃ b c, e = .crBeat true b c)

/-- The event ends a poll with its answer, or is the last beat of one (R113, R173). -/
def EndsPoll (s : State) (e : Event) : Prop := s.seq = .poll ∧ ((∃ c, e = .poll c) ∨ ∃ b c, e = .crBeat true b c)

/-- The event brings response bytes for RXBUF (R114, R176). -/
def BringsBytes (s : State) (e : Event) : Prop := s.seq = .read ∧ ((∃ d, e = .read d) ∨ ∃ b c, e = .crBeat false b c)

/-- The event is a host write into RXBUF of an idle block (R76). -/
def WritesRxbuf (s : State) (e : Event) : Prop := s.seq = .idle ∧ ∃ a d, e = .hostWrite a d ∧ 0x400 ≤ a.toNat

/-- The event is a write to CMD of an idle block that asks for AWAIT (R101). -/
def AsksForAwait (s : State) (e : Event) : Prop :=
  s.seq = .idle ∧ ∃ a d, e = .hostWrite a d ∧ a.toNat / 4 = 0 ∧ d.extractLsb' 0 2 = 2#2

/-- Each result is written by an event of its own command, or is the same in `t` as in `s`. A proof names the results
that are written; those it does not name must be the same by definition. -/
structure ResultsWritten (s : State) (e : Event) (t : State) : Prop where
  frame : (e = .encComplete ∧ s.seq = .enc) ∨
    (t.frameLen = s.frameLen ∧ ∀ a, 0x200 ≤ a → a < 0x400 → storedByte t.mem a = storedByte s.mem a) := by
      exact .inr ⟨rfl, fun _ _ _ => rfl⟩
  descriptor : (e = .decComplete ∧ s.seq = .dec) ∨
    (t.descRaw = s.descRaw ∧ t.descLen = s.descLen ∧ t.descInfo = s.descInfo) := by exact .inr ⟨rfl, rfl, rfl⟩
  rxbuf : (BringsBytes s e ∨ WritesRxbuf s e) ∨ ∀ a, 0x400 ≤ a → storedByte t.mem a = storedByte s.mem a := by
    exact .inr fun _ _ => rfl
  got : (EndsRead s e ∨ AsksForAwait s e) ∨ t.rrGot = s.rrGot := by exact .inr rfl
  elapsed : ((s.seq = .wait ∧ e = .tick) ∨ AsksForAwait s e) ∨ t.rrElapsed = s.rrElapsed := by exact .inr rfl
  avail : (EndsPoll s e ∨ AsksForAwait s e) ∨ t.rrAvail = s.rrAvail := by exact .inr rfl

/-- Acceptance writes AWAIT's results if the command is AWAIT, and no other result (R101). -/
theorem accept_cases (op : BitVec 2) (s : State) :
    (op = 2#2 ∧ ∃ q st g el av ch, accept op s =
      { s with seq := q, status := st, rrGot := g, rrElapsed := el, rrAvail := av, chan := ch }) ∨
    ∃ q st, accept op s = { s with seq := q, status := st } := by
  unfold accept
  split_ifs with hencode hdecode hawait
  · exact .inr ⟨_, _, rfl⟩
  · exact .inr ⟨_, _, rfl⟩
  · refine .inl ⟨hawait, ?_⟩
    unfold acceptAwait
    split <;> exact ⟨_, _, _, _, _, _, rfl⟩
  · exact .inr ⟨_, _, rfl⟩

/-- A write to an idle block accepts a command, stores an operand or nothing, or stores four bytes (R76). -/
theorem writeIdle_cases (o : Nat) (d : Word) (s : State) :
    (o = 0 ∧ writeIdle o d s = accept (d.extractLsb' 0 2) s) ∨
    (∃ c n T, writeIdle o d s = { s with encCtrl := c, rrN := n, rrTimeout := T }) ∨
    (((0x100 ≤ o ∧ o < 0x200) ∨ (0x400 ≤ o ∧ o < 0x800)) ∧
      writeIdle o d s = { s with mem := writeBytes s.mem o (leBytes d) }) := by
  unfold writeIdle
  split_ifs with hcmd hctrl hn hT hbuf
  · exact .inl ⟨hcmd, rfl⟩
  · exact .inr (.inl ⟨_, _, _, rfl⟩)
  · exact .inr (.inl ⟨_, _, _, rfl⟩)
  · exact .inr (.inl ⟨_, _, _, rfl⟩)
  · rw [Bool.or_eq_true, inPlbuf_iff, inRxbuf_iff] at hbuf
    exact .inr (.inr ⟨hbuf, rfl⟩)
  · exact .inr (.inl ⟨_, _, _, rfl⟩)

theorem resultsWritten_write {s : State} (hidle : s.seq = .idle) (a : Addr) (d : Word) :
    ResultsWritten s (.hostWrite a d) (writeIdle (wordOffset a) d s) := by
  obtain ⟨ho, h⟩ | ⟨c, n, T, h⟩ | ⟨ho, h⟩ := writeIdle_cases (wordOffset a) d s <;> rw [h]
  · obtain ⟨hop, q, st, g, el, av, ch, h⟩ | ⟨q, st, h⟩ := accept_cases (d.extractLsb' 0 2) s <;> rw [h]
    · have hask : AsksForAwait s (.hostWrite a d) := ⟨hidle, a, d, rfl, wordOffset_eq_zero.mp ho, hop⟩
      exact { got := .inl (.inr hask), elapsed := .inl (.inr hask), avail := .inl (.inr hask) }
    · exact {}
  · exact {}
  · obtain ⟨-, halign⟩ := wordOffset_lt a
    obtain ⟨-, hother⟩ := storedByte_word (m := s.mem) ho halign d
    rcases ho with hpl | hrx
    · exact {
        frame := .inr ⟨rfl, fun x _ _ => hother x (by omega)⟩
        rxbuf := .inr fun x _ => hother x (by omega) }
    · have hlo : 0x400 ≤ a.toNat := by rw [wordOffset_eq] at hrx; omega
      exact {
        frame := .inr ⟨rfl, fun x _ _ => hother x (by omega)⟩
        rxbuf := .inl (.inr ⟨hidle, a, d, rfl, hlo⟩) }

theorem resultsWritten_device {s : State} (hidle : s.seq = .idle) (e : Event) (op : Byte) (payload : Option (List Byte)) :
    ResultsWritten s e (issueEncode op payload s) := by
  have hmax := length_paddedPayload payload
  rw [issueEncode_idle hidle]
  exact {
    frame := .inr ⟨rfl, fun a _ _ => storedByte_plbuf_outside (by omega)⟩
    rxbuf := .inr fun a _ => storedByte_plbuf_outside (by omega) }

theorem resultsWritten_of_effect {e : Event} {s t : State} (hreset : ∀ bus, e ≠ .reset bus) (h : Effect s e t) :
    ResultsWritten s e t := by
  cases h with
  | stray => exact {}
  | overrun => exact {}
  | write hidle a d => exact resultsWritten_write hidle a d
  | device hidle bytes op p => exact resultsWritten_device hidle _ op p
  | hostRead => exact {}
  | take => exact {}
  | encComplete h =>
    have hmem := encComplete_mem s
    obtain ⟨q, st, fl, m, dr, hframe⟩ := encComplete_frame s
    rw [hframe] at hmem ⊢
    exact { frame := .inl ⟨rfl, h⟩, rxbuf := .inr fun a ha => hmem a (.inr ha) }
  | decComplete h =>
    obtain ⟨q, st, raw, len, info, dr, hframe⟩ := decComplete_frame s
    rw [hframe]
    exact { descriptor := .inl ⟨rfl, h⟩ }
  | poll h c hanswer =>
    obtain ⟨q, st, av, ch, hframe⟩ := poll_frame c s
    rw [hframe]
    exact { avail := .inl (.inl ⟨h, poll_event hanswer⟩) }
  | tick h => rw [tick_wait h]; exact { elapsed := .inl (.inl ⟨h, rfl⟩) }
  | read h d =>
    obtain ⟨q, st, g, m, ch, hframe, hmem⟩ := read_frame d s
    rw [hframe]
    exact {
      frame := .inr ⟨rfl, fun a _ ha => hmem a ha⟩
      rxbuf := .inl (.inl ⟨h, .inl ⟨d, rfl⟩⟩)
      got := .inl (.inl ⟨h, .inl ⟨d, rfl⟩⟩) }
  | lastBeat h _ b c =>
    have hnone : storeReceived s [] = s.mem := by rw [storeReceived, List.take_nil, writeBytes]
    rw [read_any h, hnone]
    exact { got := .inl (.inl ⟨h, .inr ⟨b, c, rfl⟩⟩) }
  | dataBeat h _ b c =>
    exact { frame := .inr ⟨rfl, fun a _ ha => dataBeat_mem b s ha⟩, rxbuf := .inl (.inl ⟨h, .inr ⟨b, c, rfl⟩⟩) }
  | reset bus => exact absurd rfl (hreset bus)

/-- Settles O49: a result that changed is not the same, so its event is one that writes it. -/
theorem resultsAreWrittenByTheirOwnCommand : Obligations.ResultsAreWrittenByTheirOwnCommand := by
  intro s t e hstep hreset
  obtain ⟨hframe, hdesc, hrxbuf, hgot, hel, hav⟩ := resultsWritten_of_effect hreset (effect_of_stepEvent hstep)
  refine ⟨fun h => hframe.resolve_right ?_, fun h => hdesc.resolve_right ?_, fun h => hrxbuf.resolve_right ?_,
    hgot.resolve_right, hel.resolve_right, hav.resolve_right⟩
  · rintro ⟨hlen, hmem⟩
    obtain hne | ⟨a, hlo, hhi, hne⟩ := h
    · exact hne hlen
    · exact hne (hmem a hlo hhi)
  · rintro ⟨hraw, hlen, hinfo⟩
    obtain hne | hne | hne := h
    · exact hne hraw
    · exact hne hlen
    · exact hne hinfo
  · intro hmem
    obtain ⟨a, ha, hne⟩ := h
    exact hne (hmem a ha)

end Sys2Proof.Machine

/-! PROOFS. Host reads (R77): the registers by offset, the buffer bytes, and what a read while busy still gives exactly
(R54, R83). -/

namespace Sys2Proof.Machine

section Registers
variable (s : State)

theorem readWord_cmd : readWord s 0x000 = 0#32 := rfl
theorem readWord_rrTimeout : readWord s 0x020 = s.rrTimeout := rfl
theorem readWord_rrElapsed : readWord s 0x028 = s.rrElapsed := rfl
theorem readWord_rrAvail : readWord s 0x02C = s.rrAvail := rfl

theorem readWord_encCtrl : readWord s 0x008 =
    0#7 ++ BitVec.ofBool s.encCtrl.hasPayload ++ 0#7 ++ s.encCtrl.len ++ s.encCtrl.opcode := encCtrlWord_append s.encCtrl

theorem readWord_rrN : readWord s 0x01C = 0#16 ++ s.rrN := setWidth_append s.rrN 16 rfl

variable {s}

theorem readWord_frameLen_append (h : s.seq ≠ .enc) : readWord s 0x00C = 0#23 ++ s.frameLen := by
  rw [readWord_frameLen h]; exact setWidth_append s.frameLen 23 rfl

theorem readWord_descLen_append (h : s.seq ≠ .dec) : readWord s 0x014 = 0#2 ++ s.descLen := by
  rw [readWord_descLen h]; exact setWidth_append s.descLen 2 rfl

theorem readWord_descInfo_append (h : s.seq ≠ .dec) : readWord s 0x018 =
    BitVec.ofBool s.descInfo.valid ++ 0#7 ++ s.descInfo.type ++ 0#7 ++ BitVec.ofBool s.descInfo.single ++ 0#6
      ++ s.descInfo.mode := by
  rw [readWord_descInfo h, descInfoWord_append]

theorem readWord_rrGot (h : awaiting s.seq = false) : readWord s 0x024 = 0#16 ++ s.rrGot := by
  rw [readWord_reg (by decide), readRegister_rrGot, h]; exact setWidth_append s.rrGot 16 rfl

/-- The reserved offsets read 0 (R41). -/
theorem readWord_reserved {o : Nat} (hlo : 0x030 ≤ o) (hhi : o < 0x100) : readWord s o = 0#32 := by
  rw [readWord_reg hhi, readRegister]
  repeat rw [if_neg (by omega)]

end Registers

/-- Which bytes a read finds unspecified while a command runs (R54). -/
theorem hiddenByte_iff (s : State) (a : Nat) : hiddenByte s a = true ↔
    (s.seq = .enc ∧ 0x200 ≤ a ∧ a < 0x400) ∨ (awaiting s.seq = true ∧ 0x400 ≤ a ∧ a < 0x800) := by
  rw [hiddenByte, Bool.or_eq_true, Bool.and_eq_true, Bool.and_eq_true, decide_eq_true_eq, inFrameWindow_iff, inRxbuf_iff]

/-- A stored byte that is no result of a running command reads as stored (R83). -/
theorem readWord_stored_byte {s : State} {o i : Nat} {b : Byte} (ho : 0x100 ≤ o) (hi : i < 4)
    (hs : storedByte s.mem (o + i) = some b) (hst : o + i < 0x303 ∨ (0x400 ≤ o + i ∧ o + i < 0x800))
    (hhidden : ¬ hiddenByte s (o + i) = true) : (readWord s o).extractLsb' (8 * i) 8 = b := by
  rw [readWord_byte ho i hi]
  exact windowByte_stored hs ((isStorage_iff _).mpr (by omega)) (by simpa using hhidden)

/-- Settles O34: the offset's register or buffer bytes; on an idle block no byte is hidden. -/
theorem hostReadByOffset : Obligations.HostReadByOffset := by
  intro s a o ho hidle
  have hoff : wordOffset a = o := (wordOffset_eq a).trans ho.symm
  obtain ⟨hmax, halign⟩ := hoff ▸ wordOffset_lt a
  have henc : s.seq ≠ .enc := by simp [hidle]
  have hdec : s.seq ≠ .dec := by simp [hidle]
  refine ⟨_, stepEvent_hostRead s a, rfl, ?_⟩
  rw [hostRead_hRdata, hoff]
  clear ho hoff
  refine ⟨?cmd, ?status, ?encCtrl, ?frameLen, ?descRaw, ?descLen, ?descInfo, ?rrN, ?rrTimeout, ?rrGot, ?rrElapsed,
    ?rrAvail, readWord_reserved, ?buffer⟩
  case cmd => rintro rfl; exact readWord_cmd s
  case status => rintro rfl; rw [readWord_status, statusWord_append, busy, hidle]; rfl
  case encCtrl => rintro rfl; exact readWord_encCtrl s
  case frameLen => rintro rfl; exact readWord_frameLen_append henc
  case descRaw => rintro rfl; exact readWord_descRaw hdec
  case descLen => rintro rfl; exact readWord_descLen_append hdec
  case descInfo => rintro rfl; exact readWord_descInfo_append hdec
  case rrN => rintro rfl; exact readWord_rrN s
  case rrTimeout => rintro rfl; exact readWord_rrTimeout s
  case rrGot => rintro rfl; exact readWord_rrGot (by rw [hidle]; rfl)
  case rrElapsed => rintro rfl; exact readWord_rrElapsed s
  case rrAvail => rintro rfl; exact readWord_rrAvail s
  case buffer =>
    rintro hbuf i b hi (⟨hs, hst⟩ | ⟨hlo, hhi, rfl⟩)
    · exact readWord_stored_byte hbuf hi hs (by omega) (by rw [hiddenByte_idle hidle]; decide)
    · rw [readWord_byte hbuf i hi]
      exact windowByte_hole (Bool.eq_false_iff.mpr fun h => by rw [isStorage_iff] at h; omega)

/-- Settles O35: the same reads, each under the condition that its command does not run. -/
theorem busyReadsOfOtherRegistersAreExact : Obligations.BusyReadsOfOtherRegistersAreExact := by
  intro s a o t ho hbusy h
  have hoff : wordOffset a = o := (wordOffset_eq a).trans ho.symm
  obtain ⟨hmax, halign⟩ := hoff ▸ wordOffset_lt a
  have ht : t.hRdata = readWord s o := by cases h; exact congrArg (readWord s) hoff
  refine ⟨by cases h; rfl, ?_⟩
  rw [ht]
  clear ho hoff ht
  refine ⟨?cmd, ?status, ?encCtrl, ?rrN, ?rrTimeout, ?rrElapsed, ?rrAvail, ?frameLen, ?descRaw, ?descLen, ?descInfo,
    ?rrGot, ?buffer⟩
  case cmd => rintro rfl; exact readWord_cmd s
  case status => rintro rfl; rw [readWord_status, statusWord_append, (busy_iff s).mpr hbusy]; rfl
  case encCtrl => rintro rfl; exact readWord_encCtrl s
  case rrN => rintro rfl; exact readWord_rrN s
  case rrTimeout => rintro rfl; exact readWord_rrTimeout s
  case rrElapsed => rintro rfl; exact readWord_rrElapsed s
  case rrAvail => rintro rfl; exact readWord_rrAvail s
  case frameLen => rintro rfl henc; exact readWord_frameLen_append henc
  case descRaw => rintro rfl hdec; exact readWord_descRaw hdec
  case descLen => rintro rfl hdec; exact readWord_descLen_append hdec
  case descInfo => rintro rfl hdec; exact readWord_descInfo_append hdec
  case rrGot =>
    rintro rfl hseq
    exact readWord_rrGot (by obtain hseq | hseq := hseq <;> rw [hseq] <;> rfl)
  case buffer =>
    intro i b hi hs hplace
    refine readWord_stored_byte (by omega) hi hs (by omega) fun hhidden => ?_
    obtain ⟨henc, hlo, hhi⟩ | ⟨hawait, hlo, hhi⟩ := (hiddenByte_iff s (o + i)).mp hhidden
    · obtain hpl | ⟨-, -, hne⟩ | ⟨hrx, -⟩ := hplace
      · omega
      · exact hne henc
      · omega
    · obtain hpl | hfr | ⟨-, hseq | hseq⟩ := hplace
      · omega
      · omega
      · simp [hseq] at hawait
      · simp [hseq] at hawait

/-- A word is known by its bytes (R73). -/
theorem word_eq_of_bytes {w d : Word} (h : ∀ i, i < 4 → w.extractLsb' (8 * i) 8 = d.extractLsb' (8 * i) 8) : w = d := by
  rw [← leWord_bytes w, ← leWord_bytes d]
  exact congr (congr (congr (congrArg leWord (h 0 (by decide))) (h 1 (by decide))) (h 2 (by decide))) (h 3 (by decide))

/-- Settles O37: the bytes stored are those of the word, and each reads as stored. -/
theorem bufferWordReadsBack : Obligations.BufferWordReadsBack := by
  intro s a d hidle ha
  obtain ⟨hmax, halign⟩ := wordOffset_lt a
  have hplace :
      (0x100 ≤ wordOffset a ∧ wordOffset a < 0x200) ∨ (0x400 ≤ wordOffset a ∧ wordOffset a < 0x800) := by
    rw [wordOffset_eq] at hmax ⊢; omega
  obtain ⟨hstored, -⟩ := storedByte_word (m := s.mem) hplace halign d
  refine ⟨_, _, stepEvent_hostWrite_idle hidle a d, stepEvent_hostRead _ a, ?_, ?_⟩
  · rw [hostRead_hRdata, writeIdle_buffer hplace]
    refine word_eq_of_bytes fun i hi => readWord_stored_byte (by omega) hi (hstored i hi) (by omega) ?_
    rw [hiddenByte_idle (by exact hidle)]; decide
  · rw [writeIdle_buffer hplace]
    exact hstored

/-- On an idle block a register reads the same after a read (R77, R79). -/
theorem readRegister_hostRead {s : State} (hidle : s.seq = .idle) (a : Addr) (o : Nat) :
    readRegister (hostRead a s) o = readRegister s o := by
  cases s
  cases hidle
  rfl

/-- On an idle block a byte that is no storage, or is written, reads the same after a read, whatever is drawn (R89). -/
theorem windowByte_hostRead {s : State} {x : Nat} (hidle : s.seq = .idle)
    (hx : isStorage x = true → (storedByte s.mem x).isSome = true) (a : Addr) (k k' : Nat) :
    windowByte (hostRead a s) x k = windowByte s x k' := by
  cases hst : isStorage x with
  | false => rw [windowByte_hole hst, windowByte_hole hst]
  | true =>
    obtain ⟨b, hb⟩ := Option.isSome_iff_exists.mp (hx hst)
    rw [windowByte_stored hb hst (hiddenByte_idle hidle x),
      windowByte_stored (s := hostRead a s) hb hst (hiddenByte_idle hidle x)]

/-- Settles O38: a read changes only the read port and the draws, on which no such read depends. -/
theorem hostReadsAreIdempotent : Obligations.HostReadsAreIdempotent := by
  intro s t u a hidle hwritten ht hu
  cases (stepEvent_hostRead s a).symm.trans ht
  cases (stepEvent_hostRead _ a).symm.trans hu
  refine ⟨?_, rfl⟩
  rw [hostRead_hRdata, hostRead_hRdata]
  rcases Nat.lt_or_ge (wordOffset a) 0x100 with hreg | hbuf
  · rw [readWord_reg hreg, readWord_reg hreg, readRegister_hostRead hidle]
  · refine word_eq_of_bytes fun i hi => ?_
    rw [readWord_byte hbuf i hi, readWord_byte hbuf i hi]
    exact windowByte_hostRead hidle (hwritten i hi) a _ _

end Sys2Proof.Machine
